-- ==== Sys2Proof/Word.lean ====
section
/-! DEFINITION. The word types of `meshcore_frame_codec` (spec/00_scope.md R12): bytes and 16-bit
lengths and bounds. No arithmetic of the block is signed; counts and indexes are `Nat` (R13). -/

namespace Sys2Proof

/-- A byte (R12). -/
abbrev Byte := BitVec 8

/-- A 16-bit bus value: a length, a bound or a transaction word (R12, R92). -/
abbrev Half := BitVec 16

end Sys2Proof
end

