-- ==== Sys2Proof/Config.lean ====
section
/-! DEFINITION. The configuration of one block instance (spec/00_scope.md R6 to R10, R17;
spec/10_state.md R45): parameters of the step relation, written by no transaction. There is no free
value in this model: everything the spec leaves OPEN is a field of `Config`, and every statement
holds for each value of it. -/

namespace Sys2Proof

/-- The kind of a frame (R8, R97): a command frame or a response, push, ok or error frame. -/
inductive FrameKind where
  | cmd
  | rsp
  deriving DecidableEq, Repr

/-- One entry of `LEN_TABLE` (R9, R130): inclusive bounds on the number of argument bytes. -/
structure LenEntry where
  id : Byte
  min : Half
  max : Half
  deriving DecidableEq, Repr

/-- An encode length mode (R10, R171). -/
inductive EncMode where
  | fixed (m : Nat)
  | selfInfo (p : Nat)
  | explicit
  deriving DecidableEq, Repr

/-- One entry of `ENC_TABLE` (R10, R171). -/
structure EncEntry where
  code : Byte
  mode : EncMode
  deriving DecidableEq, Repr

/-- The configuration (R45). `errRspCode` is `none` when the configuration names no error response
code (R171 check 5, conflict C13). -/
structure Config where
  maxFrame : Nat
  rxKind : FrameKind
  lenTable : List LenEntry
  encTable : List EncEntry
  errRspCode : Option Byte
  deriving DecidableEq, Repr

/-- The configuration `State.reset` carries. DESIGN CHOICE (notes/assumptions/1.md, unsafe for a
claim about `State.reset` alone): the spec leaves every item but `MAX_FRAME`'s default OPEN, so the
fixture F-CMD of spec/95_test_vectors.md stands here. -/
def Config.initial : Config where
  maxFrame := 172
  rxKind := .cmd
  lenTable := [⟨0x07#8, 0, 1⟩, ⟨0x01#8, 1, 4⟩, ⟨0x02#8, 0, 168⟩]
  encTable := [⟨0x00#8, .fixed 0⟩, ⟨0x01#8, .fixed 1⟩, ⟨0x05#8, .selfInfo 4⟩]
  errRspCode := some 0x01#8

end Sys2Proof
end

