-- ==== Sys2Proof/Syntax.lean ====
section
/-! DEFINITION. The six transactions of spec/opcode_table.json (spec/30_encoding.md R90, R94), and
the presented form of one: its 16-bit word and side operands (R92, R97). -/

namespace Sys2Proof

/-- A transaction, one handshake on one port (R90, R94). -/
inductive Instr where
  /-- `RX_BYTE b` (R110): one byte of the input stream. -/
  | rxByte (b : Byte)
  /-- `RX_CLEAR` (R202): the reassembler clear. -/
  | rxClear
  /-- `RES_TAKE` (R200): the handler takes the waiting result. -/
  | resTake
  /-- `ENC_REQ k t` (R170) with the side operands `enc_len` and `enc_data` (R97). -/
  | encReq (k : FrameKind) (t : Byte) (encLen : Half) (encData : List Byte)
  /-- `OUT_TAKE` (R185): the sink takes one output byte. -/
  | outTake
  /-- `RESET` (R204): the block reset. -/
  | reset
  deriving DecidableEq, Repr

/-- What an initiator presents: the transaction word (R92) and the encode request bus's side
operands (R97). Only `ENC_REQ` reads the side operands. DESIGN CHOICE, safe
(notes/assumptions/8.md). -/
structure Tx where
  word : Half
  encLen : Half := 0
  encData : List Byte := []
  deriving DecidableEq, Repr

/-- Why a word is refused by name (R93). -/
inductive DecodeError where
  /-- `op` is `0x0` or `0x7` to `0xF`. -/
  | reservedOp
  /-- A nonzero `z` field. -/
  | nonzeroZ
  /-- A nonzero `k` field where R92 says it must be 0. -/
  | nonzeroK
  /-- A nonzero `b` field where R92 says it must be 0. -/
  | nonzeroB
  deriving DecidableEq, Repr

end Sys2Proof
end

