-- ==== Sys2Proof/WellFormed.lean ====
section
/-! DEFINITION. What a well-formed transaction is (spec/30_encoding.md R93, R97), and the names of
the checks a configuration must pass (R6, R130, R171). The configuration checks themselves are
`Config.firstFailed` in Machine/ConfigCheck.lean. -/

namespace Sys2Proof

/-- A transaction is well formed when its request data fits the bus of `ARG_CAP` bytes (R93, R97).
All other operands are well formed by their types. -/
def Instr.wf (argCap : Nat) : Instr → Bool
  | .rxByte _ => true
  | .rxClear => true
  | .resTake => true
  | .encReq _ _ _ encData => encData.length ≤ argCap
  | .outTake => true
  | .reset => true

/-- The configuration checks of R6, R130 and R171. Checks 1 and 2 of R130 and check 1 of R171 hold
by the types of `LenEntry` and `EncEntry`. -/
inductive ConfigCheck where
  /-- R6: `4 <= MAX_FRAME <= 65538`. -/
  | maxFrameRange
  /-- R130 check 3: no `LEN_TABLE` id appears twice. -/
  | lenDuplicate
  /-- R130 check 4: `min <= max` in every entry. -/
  | lenInverted
  /-- R130 check 5: when `RX_KIND = CMD`, id `0x07` has an entry with `min = 0`. -/
  | lenAdvert
  /-- R171 check 2: no `ENC_TABLE` code appears twice. -/
  | encDuplicate
  /-- R171 check 3: `FIXED(m)` and `SELF_INFO(p)` stay within `ARG_CAP`. -/
  | encModeRange
  /-- R171 check 4: code `0x00` ("ok") maps to `FIXED(0)`. -/
  | encOk
  /-- R171 check 5: a named `ERR_RSP_CODE` maps to `FIXED(1)`. -/
  | encErrRsp
  deriving DecidableEq, Repr

end Sys2Proof
end

