-- ==== Sys2Proof/Decode.lean ====
section
/-! DEFINITION. The decoder and encoder of transaction words, from spec/30_encoding.md R92 to R94
and spec/opcode_table.json. The decoder is total and refuses reserved and malformed words by name. -/

namespace Sys2Proof

/-- A row of the opcode map (R94): a word belongs to the row when its masked bits are `bits`. -/
structure OpRow where
  bits : Half
  mask : Half
  deriving DecidableEq, Repr

def rowRxByte : OpRow := ⟨0x1000#16, 0xFF00#16⟩
def rowRxClear : OpRow := ⟨0x2000#16, 0xFFFF#16⟩
def rowResTake : OpRow := ⟨0x3000#16, 0xFFFF#16⟩
def rowEncReq : OpRow := ⟨0x4000#16, 0xFE00#16⟩
def rowOutTake : OpRow := ⟨0x5000#16, 0xFFFF#16⟩
def rowReset : OpRow := ⟨0x6000#16, 0xFFFF#16⟩

/-- The six named rows of the opcode map, in order (R94). -/
def opRows : List OpRow := [rowRxByte, rowRxClear, rowResTake, rowEncReq, rowOutTake, rowReset]

/-- A word matches a row (R94, "match / mask"). -/
def OpRow.hits (r : OpRow) (w : Half) : Bool := w &&& r.mask == r.bits

/-- The fields of a transaction word (R92). -/
def opField (w : Half) : BitVec 4 := w.extractLsb' 12 4
def zField (w : Half) : BitVec 3 := w.extractLsb' 9 3
def kField (w : Half) : BitVec 1 := w.extractLsb' 8 1
def bField (w : Half) : Byte := w.extractLsb' 0 8

/-- The kind bit of `ENC_REQ` (R92, R97): 0 = CMD, 1 = RSP. -/
def kindOfBit (k : BitVec 1) : FrameKind := if k = 0 then .cmd else .rsp

/-- The name under which a word that matches no row is refused (R93). A word that breaks several
field rules is named after the first of `z`, `k`, `b`. DESIGN CHOICE, safe
(notes/assumptions/16.md). -/
def rejectName (w : Half) : DecodeError :=
  if opField w = 0 ∨ 7 ≤ (opField w).toNat then .reservedOp
  else if zField w ≠ 0 then .nonzeroZ
  else if kField w ≠ 0 then .nonzeroK
  else .nonzeroB

/-- The decoder (R94): the word is matched against the rows in order, and a word that matches no row
is refused. -/
def decode (t : Tx) : Except DecodeError Instr :=
  if rowRxByte.hits t.word then .ok (.rxByte (bField t.word))
  else if rowRxClear.hits t.word then .ok .rxClear
  else if rowResTake.hits t.word then .ok .resTake
  else if rowEncReq.hits t.word then
    .ok (.encReq (kindOfBit (kField t.word)) (bField t.word) t.encLen t.encData)
  else if rowOutTake.hits t.word then .ok .outTake
  else if rowReset.hits t.word then .ok .reset
  else .error (rejectName t.word)

/-- The kind bit in place, bit 8 (R92). -/
def kindBits : FrameKind → Half
  | .cmd => 0x0000#16
  | .rsp => 0x0100#16

/-- The transaction word of a transaction (R92, R94). -/
def encodeWord : Instr → Half
  | .rxByte b => 0x1000#16 ||| b.setWidth 16
  | .rxClear => 0x2000#16
  | .resTake => 0x3000#16
  | .encReq k t _ _ => 0x4000#16 ||| kindBits k ||| t.setWidth 16
  | .outTake => 0x5000#16
  | .reset => 0x6000#16

/-- The encoder: the word, and the side operands of `ENC_REQ` (R92, R97). -/
def encode (i : Instr) : Tx :=
  match i with
  | .rxByte _ => ⟨encodeWord i, 0, []⟩
  | .rxClear => ⟨encodeWord i, 0, []⟩
  | .resTake => ⟨encodeWord i, 0, []⟩
  | .encReq _ _ encLen encData => ⟨encodeWord i, encLen, encData⟩
  | .outTake => ⟨encodeWord i, 0, []⟩
  | .reset => ⟨encodeWord i, 0, []⟩

/-- A 16-bit word alone, as an initiator presents it: R99's omitted `len=` and `data=` stand for
`len=0` and `data=[]`. -/
def Tx.ofWord (w : Nat) : Tx := ⟨BitVec.ofNat 16 w, 0, []⟩

/-- The decoder on a word numbered as spec/opcode_table.json numbers it. Every row has 16 bits
(DEDUCED, notes/assumptions/9.md). -/
def decodeTableWord (nbits w : Nat) : Option Instr :=
  if nbits = 16 ∧ w < 65536 then
    match decode (Tx.ofWord w) with
    | .ok i => some i
    | .error _ => none
  else none

end Sys2Proof
end

