-- ==== Sys2Proof/Machine/State.lean ====
section
/-! DEFINITION. The state of one block instance (spec/10_state.md R30 to R37), the result value
(spec/42_record_decoder.md R156), the error events and their trace (spec/60_exceptions.md R220,
R238), and the reasons a step can stop (R18, R231, R232). Plain data throughout. -/

namespace Sys2Proof.Machine

/-- A byte array of written cells (R32, R34): (index, byte) pairs, indices strictly rising. An index
that is not listed is an unwritten cell, which holds no value (R15). -/
abbrev Memory := List Host.Cell

/-- The canonical form of `Memory`. -/
abbrev Memory.wf (m : Memory) : Prop := m.Pairwise (fun x y => x.1 < y.1)

/-- A result value (R156); the form says which fields exist. -/
inductive Result where
  | ok (t : Byte) (n : Nat) (a : List Byte)
  | unsupported (t : Byte) (n : Nat)
  | badLen (t : Byte) (n : Nat) (lo hi : Half)
  deriving DecidableEq, Repr

/-- `tx_status` (R37, R98). -/
inductive EncStatus where
  | ok
  | tooLong
  deriving DecidableEq, Repr

/-- The error events of R220, each with the information its `raise` records (R14). -/
inductive Event where
  | frameOverflow (length : Nat)
  | frameEmpty
  | unsupported (t : Byte) (n : Nat)
  | badLen (t : Byte) (n : Nat) (lo hi : Half)
  | encTooLong (length : Nat)
  deriving DecidableEq, Repr

/-- One record of the model event trace (R238): the transaction, and the event it raised or none. -/
structure TraceEntry where
  instr : Instr
  event : Option Event
  deriving DecidableEq, Repr

/-- The two buffers with unwritten cells (R14, R60). -/
inductive Buf where
  | rx
  | tx
  deriving DecidableEq, Repr

/-- The architectural state, R30's tuple `(pos, rxbuf, res, txbuf, tx_total, tx_idx, tx_status)`.
Counters are natural numbers whose ranges the invariant keeps (DEDUCED, notes/assumptions/18.md). -/
structure Block where
  /-- R31: bytes of the current frame stored so far, 0 = Searching. -/
  pos : Nat
  /-- R32: the frame being assembled. -/
  rxbuf : Memory
  /-- R33: the result register. -/
  res : Option Result
  /-- R34: the frame being emitted. -/
  txbuf : Memory
  /-- R35: bytes of the frame in `txbuf`, 0 = idle. -/
  txTotal : Nat
  /-- R36: index of the next byte to emit. -/
  txIdx : Nat
  /-- R37: outcome of the last accepted `ENC_REQ`. -/
  txStatus : EncStatus
  deriving DecidableEq, Repr

/-- The values of R48: after `RESET` and at power-on (R250). -/
def Block.reset : Block where
  pos := 0
  rxbuf := []
  res := none
  txbuf := []
  txTotal := 0
  txIdx := 0
  txStatus := .ok

/-- The machine's state. `blk` is the hardware's whole state (R30). `cfg` is the configuration, a
parameter of the step relation that no step changes (R17; notes/assumptions/1.md). `pending` holds
the transactions initiators present and keep until their transfer (R18, R91;
notes/assumptions/3.md). `handed`, `emitted` and `trace` record what the handler received (R200),
what the sink received (R185) and R238's trace; they are no hardware state and no rule reads them
(notes/assumptions/7.md). -/
structure State where
  cfg : Config
  blk : Block
  pending : List Tx
  handed : List Result
  emitted : List (Byte × Bool)
  trace : List TraceEntry
  deriving DecidableEq, Repr

/-- Why the model stops with a fault (R18, R232). Each one is safe: R121 and R184 say that no run
from reset meets it (DEDUCED, notes/assumptions/5.md and 6.md). -/
inductive Fault where
  /-- A read of an unwritten cell (R15, R232), by any transaction that reads `rxbuf` or `txbuf`.
  Safe. -/
  | unwritten (buf : Buf) (i : Nat)
  /-- A write past the `MAX_FRAME` cells of a buffer (R60), by `RX_BYTE` or `ENC_REQ`. Safe. -/
  | outOfRange (buf : Buf) (i : Nat)
  /-- `RX_BYTE` found `pos >= total`, which R121 excludes (R18). Safe. -/
  | posBeyondFrame
  /-- `OUT_TAKE` found `tx_idx >= tx_total`, which R184 excludes (R18). Safe. -/
  | txIdxBeyondFrame
  deriving DecidableEq, Repr

/-- Why the model refuses (R18, R231). Each one is safe: a refused run has no further step. -/
inductive Refusal where
  /-- Raised by no arm of this model: an instruction without a meaning yet, by mnemonic. Safe. -/
  | notModelled (mnemonic : String)
  /-- The fetch met a reserved or malformed transaction word (R93). Safe. -/
  | badWord (e : DecodeError)
  /-- An `ENC_REQ` whose `enc_data` is longer than `ARG_CAP` (R93, R231). Safe. -/
  | encDataTooLong
  /-- The configuration fails a check of R6, R130 or R171 (R231), raised by the fetch. Safe. -/
  | illFormedConfig (c : ConfigCheck)
  deriving DecidableEq, Repr

/-- A step's outcome (R18); a hold is the fourth outcome, see `hold` in Machine/Ops.lean. -/
abbrev Outcome := Host.Outcome State Fault Refusal

/-- What the fetch finds among the presented transactions (R18, R91). -/
inductive Fetched where
  /-- Nothing is presented, or every presented transaction holds. -/
  | idle
  /-- The model refuses. -/
  | reject (r : Refusal)
  /-- `instr` transfers now; `rest` stays presented. -/
  | run (instr : Instr) (rest : List Tx)
  deriving DecidableEq, Repr

/-- The machine after reset under a configuration: R48, with nothing presented or recorded. -/
def State.resetFor (cfg : Config) : State where
  cfg := cfg
  blk := Block.reset
  pending := []
  handed := []
  emitted := []
  trace := []

/-- The machine right after reset (R48, R250), under `Config.initial`. -/
def State.reset : State := State.resetFor Config.initial

end Sys2Proof.Machine
end

