-- ==== Sys2Proof/Machine/Ops.lean ====
section
/-! DEFINITION. The named operations the meanings share: derived capacities and markers
(spec/00_scope.md R7, R11), buffer reads and writes (R14, R15), padding, a completed transaction
with the event it raises (spec/60_exceptions.md R229, R238), and the hold (R18). -/

namespace Sys2Proof

/-- `BODY_CAP = MAX_FRAME - 3` (R7): the largest length field a frame may carry. -/
def Config.bodyCap (cfg : Config) : Nat := cfg.maxFrame - 3

/-- `ARG_CAP = MAX_FRAME - 4` (R7): the largest number of argument bytes. -/
def Config.argCap (cfg : Config) : Nat := cfg.maxFrame - 4

/-- The direction marker of a frame kind (R11, R84): `MARK_CMD = 0x3C`, `MARK_RSP = 0x3E`. -/
def FrameKind.marker : FrameKind → Byte
  | .cmd => 0x3C#8
  | .rsp => 0x3E#8

/-- `RX_MARKER` (R8). -/
def Config.rxMarker (cfg : Config) : Byte := cfg.rxKind.marker

end Sys2Proof

namespace Sys2Proof.Machine

/-- `MemRead` (R14): the byte at an index, `none` for an unwritten cell (R15). -/
def memRead : Memory → Nat → Option Byte
  | [], _ => none
  | (a, v) :: m, i => if a = i then some v else memRead m i

/-- `MemWrite` (R14), keeping the canonical form. -/
def memWrite : Memory → Nat → Byte → Memory
  | [], i, v => [(i, v)]
  | (a, w) :: m, i, v =>
    if i < a then (i, v) :: (a, w) :: m
    else if i = a then (i, v) :: m
    else (a, w) :: memWrite m i v

/-- A read of a buffer cell; an unwritten cell is a model fault (R15, R232). -/
def bufRead (buf : Buf) (m : Memory) (i : Nat) : Except Fault Byte :=
  match memRead m i with
  | some v => .ok v
  | none => .error (.unwritten buf i)

/-- A write of a buffer cell; a buffer has `MAX_FRAME` cells (R60). -/
def bufWrite (cfg : Config) (buf : Buf) (m : Memory) (i : Nat) (v : Byte) : Except Fault Memory :=
  if i < cfg.maxFrame then .ok (memWrite m i v) else .error (.outOfRange buf i)

/-- `[MemRead(B, i) for i in start .. start+count-1]` (R14, R119). -/
def bufReadList (buf : Buf) (m : Memory) (start : Nat) : (count : Nat) → Except Fault (List Byte)
  | 0 => .ok []
  | count + 1 =>
    match bufRead buf m start with
    | .error f => .error f
    | .ok v =>
      match bufReadList buf m (start + 1) count with
      | .error f => .error f
      | .ok vs => .ok (v :: vs)

/-- `for i: MemWrite(B, start + i, vs[i])` (R14, R180). -/
def bufWriteList (cfg : Config) (buf : Buf) (m : Memory) (start : Nat) :
    List Byte → Except Fault Memory
  | [] => .ok m
  | v :: vs =>
    match bufWrite cfg buf m start v with
    | .error f => .error f
    | .ok m' => bufWriteList cfg buf m' (start + 1) vs

/-- The list cut or filled with `0x00` to exactly `n` bytes (R97, R150). -/
def padTo : Nat → List Byte → List Byte
  | 0, _ => []
  | n + 1, [] => 0x00#8 :: padTo n []
  | n + 1, b :: bs => b :: padTo n bs

/-- The length field from its two bytes, little-endian (R62, R81). -/
def lengthOf (lo hi : Byte) : Nat := lo.toNat + 256 * hi.toNat

/-- `total = 3 + length`, without wrap (R82). -/
def totalOf (lo hi : Byte) : Nat := 3 + lengthOf lo hi

/-- The codes of R220. -/
def Event.code : Event → Nat
  | .frameOverflow _ => 1
  | .frameEmpty => 2
  | .unsupported _ _ => 3
  | .badLen _ _ _ _ => 4
  | .encTooLong _ => 5

/-- The event a delivered result raises (R119, R223, R224). -/
def Result.event : Result → Option Event
  | .ok _ _ _ => none
  | .unsupported t n => some (.unsupported t n)
  | .badLen t n lo hi => some (.badLen t n lo hi)

/-- A completed transaction: the block's new state, with the transaction and the event it raised
recorded (R238). This is the whole of taking an error event: it transfers no control and saves
nothing else (R229). -/
def State.finish (s : State) (i : Instr) (ev : Option Event) (b : Block) : State :=
  { s with blk := b, trace := s.trace ++ [⟨i, ev⟩] }

/-- The handler receives a result (R200). -/
def State.hand (s : State) (r : Result) : State := { s with handed := s.handed ++ [r] }

/-- The sink receives a byte with its `out_last` (R185). -/
def State.emit (s : State) (v : Byte) (last : Bool) : State :=
  { s with emitted := s.emitted ++ [(v, last)] }

/-- The initiators' presented transactions become `ts`. -/
def State.withPending (s : State) (ts : List Tx) : State := { s with pending := ts }

/-- An initiator presents a transaction and keeps it until its transfer (R91, R264). -/
def State.present (s : State) (t : Tx) : State := s.withPending (s.pending ++ [t])

/-- The hold of R18: no transfer, nothing changes, and nothing is recorded. The step leaves the
request presented. DESIGN CHOICE, safe (notes/assumptions/2.md). -/
def hold (s : State) : Outcome := .next s

/-- The outcome of a transaction that computed the block's new state and an event, or a fault. -/
def settle (s : State) (i : Instr) : Except Fault (Block × Option Event) → Outcome
  | .ok (b, ev) => .next (s.finish i ev b)
  | .error f => .fault f

/-- One outcome after another, stopping at the first fault or refusal. -/
def andThen (o : Outcome) (f : State → Outcome) : Outcome :=
  match o with
  | .next s => f s
  | .fault r => .fault r
  | .refused r => .refused r

end Sys2Proof.Machine
end

