-- ==== Sys2Proof/Machine/ConfigCheck.lean ====
section
/-! DEFINITION. Configuration well-formedness (spec/00_scope.md R6, spec/41_length_validator.md
R130, spec/43_record_encoder.md R171) and the two table lookups (R46, R131, R173). -/

namespace Sys2Proof

/-- `lookup(LEN_TABLE, id)` (R14, R131): the bounds, or `none`. -/
def lookupLen : List LenEntry → Byte → Option (Half × Half)
  | [], _ => none
  | e :: es, id => if e.id = id then some (e.min, e.max) else lookupLen es id

/-- `lookup(ENC_TABLE, code)` (R14, R173): the mode, or `none`. -/
def lookupEnc : List EncEntry → Byte → Option EncMode
  | [], _ => none
  | e :: es, code => if e.code = code then some e.mode else lookupEnc es code

/-- No byte appears twice (R130 check 3, R171 check 2). -/
def noTwice : List Byte → Bool
  | [] => true
  | b :: bs => !bs.contains b && noTwice bs

/-- R171 check 3 for one mode. -/
def EncMode.fits (argCap : Nat) : EncMode → Bool
  | .fixed m => m ≤ argCap
  | .selfInfo p => p ≤ argCap
  | .explicit => true

/-- R130 check 5: an instance that receives commands has an entry for `0x07` with `min = 0`. -/
def Config.advertOk (cfg : Config) : Bool :=
  match cfg.rxKind with
  | .cmd => (lookupLen cfg.lenTable 0x07#8).any (fun bounds => bounds.1 == 0#16)
  | .rsp => true

/-- R171 check 5: a named error response code carries one argument byte. -/
def Config.errRspOk (cfg : Config) : Bool :=
  match cfg.errRspCode with
  | none => true
  | some code => lookupEnc cfg.encTable code == some (.fixed 1)

/-- One check of a configuration (R6, R130, R171). -/
def Config.passes (cfg : Config) : ConfigCheck → Bool
  | .maxFrameRange => 4 ≤ cfg.maxFrame && cfg.maxFrame ≤ 65538
  | .lenDuplicate => noTwice (cfg.lenTable.map LenEntry.id)
  | .lenInverted => cfg.lenTable.all (fun e => e.min.toNat ≤ e.max.toNat)
  | .lenAdvert => cfg.advertOk
  | .encDuplicate => noTwice (cfg.encTable.map EncEntry.code)
  | .encModeRange => cfg.encTable.all (fun e => e.mode.fits cfg.argCap)
  | .encOk => lookupEnc cfg.encTable 0x00#8 == some (.fixed 0)
  | .encErrRsp => cfg.errRspOk

/-- The checks in the order of R6, R130, R171. The spec gives no order; it fixes only which name a
configuration failing several is refused under. DESIGN CHOICE, safe (notes/assumptions/10.md). -/
def configChecks : List ConfigCheck :=
  [.maxFrameRange, .lenDuplicate, .lenInverted, .lenAdvert,
    .encDuplicate, .encModeRange, .encOk, .encErrRsp]

/-- The number under which R130 and R171 list a check; R6 has none. -/
def ConfigCheck.number : ConfigCheck → Option Nat
  | .maxFrameRange => none
  | .lenDuplicate => some 3
  | .lenInverted => some 4
  | .lenAdvert => some 5
  | .encDuplicate => some 2
  | .encModeRange => some 3
  | .encOk => some 4
  | .encErrRsp => some 5

/-- The first check a configuration fails, `none` for a well-formed one (R18, R231). -/
def Config.firstFailed (cfg : Config) : Option ConfigCheck :=
  configChecks.find? (fun c => !cfg.passes c)

/-- A well-formed configuration. -/
abbrev Config.WellFormed (cfg : Config) : Prop := cfg.firstFailed = none

end Sys2Proof
end

