-- ==== Sys2Proof/Machine/Operands.lean ====
section
/-! DEFINITION. The operand forms of `ENC_REQ` (spec/43_record_encoder.md R170, R173 to R177): the
padded request data, the length mode, and the argument length of each mode. -/

namespace Sys2Proof.Machine

/-- `enc_data ++ [0x00] * (ARG_CAP - len(enc_data))` (R97, R170). -/
def encOperand (cfg : Config) (encData : List Byte) : List Byte := padTo cfg.argCap encData

/-- The length mode (R173): commands and codes without an entry take the caller's length. -/
def lengthMode (cfg : Config) (k : FrameKind) (t : Byte) : EncMode :=
  match k with
  | .cmd => .explicit
  | .rsp => (lookupEnc cfg.encTable t).getD .explicit

/-- The number of bytes before the first `0x00`, or the whole length. -/
def untilZero : List Byte → Nat
  | [] => 0
  | b :: bs => if b = 0x00#8 then 0 else untilZero bs + 1

/-- `strlen_bounded(d, p)` (R176), over the name field `d[p..ARG_CAP)`. -/
def strlenBounded (cfg : Config) (d : List Byte) (p : Nat) : Nat :=
  untilZero ((d.drop p).take (cfg.argCap - p))

/-- The argument length `L` (R174, R175, R177). -/
def argLength (cfg : Config) (d : List Byte) (encLen : Half) : EncMode → Nat
  | .fixed m => m
  | .selfInfo p => p + strlenBounded cfg d p
  | .explicit => encLen.toNat

/-- The argument length of a request, from its own operands (R170). -/
def requestLength (cfg : Config) (k : FrameKind) (t : Byte) (encLen : Half) (encData : List Byte) :
    Nat :=
  argLength cfg (encOperand cfg encData) encLen (lengthMode cfg k t)

end Sys2Proof.Machine
end

