-- ==== Sys2Proof/Machine/Flags.lean ====
section
/-! DEFINITION. Every signal derived from the state: the handshake and status flags
(spec/10_state.md R38 to R40, R43), the `STATUS` word (R44), the reassembler's state names
(spec/40_frame_reassembler.md R111), the result bus (spec/30_encoding.md R95, R96), and which
transactions hold (spec/00_scope.md R19). -/

namespace Sys2Proof.Machine

/-- `res_valid`, the source's `is_complete` (R39, R43). -/
def Block.resValid (b : Block) : Bool := b.res.isSome

/-- `in_ready` (R38); `rxClear` is the `rx_clear` pin of the cycle. -/
def Block.inReady (b : Block) (rxClear : Bool) : Bool := !b.resValid && !rxClear

/-- `tx_busy = not enc_ready` (R43). -/
def Block.txBusy (b : Block) : Bool := b.txTotal != 0

/-- `enc_ready` (R40). -/
def Block.encReady (b : Block) : Bool := !b.txBusy

/-- `out_valid` (R40). -/
def Block.outValid (b : Block) : Bool := b.txBusy

/-- `out_last = out_valid and (tx_idx = tx_total - 1)` (R40). -/
def Block.outLast (b : Block) : Bool := b.outValid && b.txIdx == b.txTotal - 1

/-- `out_data = txbuf[tx_idx]` when `out_valid`, else 0 (R40). -/
def Block.outData (b : Block) : Except Fault Byte :=
  if b.outValid then bufRead .tx b.txbuf b.txIdx else .ok 0x00#8

/-- `tx_status` on its port (R98). -/
def EncStatus.bit : EncStatus → BitVec 1
  | .ok => 0
  | .tooLong => 1

/-- The `RX_KIND` bit of `STATUS` (R44, R45). -/
def FrameKind.bit : FrameKind → BitVec 1
  | .cmd => 0
  | .rsp => 1

/-- The `STATUS` word (R44): bits 7:4 reserved 0, then `RX_KIND`, `TX_STATUS`, `TX_BUSY`,
`RES_VALID`. Reading it has no side effect, and `pos` is not in it. -/
def State.status (s : State) : Byte :=
  (0 : BitVec 4) ++ FrameKind.bit s.cfg.rxKind ++ s.blk.txStatus.bit ++
    BitVec.ofBool s.blk.txBusy ++ BitVec.ofBool s.blk.resValid

/-- The reassembler's resting states (R111); Complete is passed through inside one transaction. -/
inductive RxState where
  | searching
  | readingLength
  | readingPayload
  deriving DecidableEq, Repr

/-- The state a value of `pos` names (R111). -/
def Block.rxState (b : Block) : RxState :=
  if b.pos = 0 then .searching else if b.pos ≤ 2 then .readingLength else .readingPayload

/-- The result bus (R90, R95). -/
structure ResultBus where
  status : BitVec 2
  type : Byte
  len : Half
  min : Half
  max : Half
  args : List Byte
  deriving DecidableEq, Repr

/-- `zext_16` of an argument count (R14, R95). -/
def zext16 (n : Nat) : Half := BitVec.ofNat 16 n

/-- The result bus encoding (R95, R96); a field the form lacks is driven 0. -/
def resultBus (cfg : Config) : Option Result → ResultBus
  | none => ⟨0, 0, 0, 0, 0, padTo (cfg.argCap + 1) []⟩
  | some (.ok t n a) => ⟨0, t, zext16 n, 0, 0, padTo (cfg.argCap + 1) (a.take n)⟩
  | some (.unsupported t n) => ⟨1, t, zext16 n, 0, 0, padTo (cfg.argCap + 1) []⟩
  | some (.badLen t n lo hi) => ⟨2, t, zext16 n, lo, hi, padTo (cfg.argCap + 1) []⟩

/-- Which transactions hold in a state (R19). A malformed `ENC_REQ` is refused and never holds.
DEDUCED, safe (notes/assumptions/13.md). -/
def holds (s : State) (i : Instr) : Bool :=
  match i with
  | .rxByte _ => s.blk.resValid
  | .rxClear => false
  | .resTake => !s.blk.resValid
  | .encReq _ _ _ _ => i.wf s.cfg.argCap && s.blk.txBusy
  | .outTake => !s.blk.outValid
  | .reset => false

end Sys2Proof.Machine
end

