-- ==== Sys2Proof/Machine/LengthValidator.lean ====
section
/-! DEFINITION. The length validator (spec/41_length_validator.md R131 to R134): a pure function of
the table and its two inputs (R138). -/

namespace Sys2Proof.Machine

/-- The verdicts of `validate` (R131). -/
inductive Verdict where
  | pass
  | noEntry
  | outOfRange (lo hi : Half)
  deriving DecidableEq, Repr

/-- `validate(t, n)` (R131): the lookup first, the inclusive bounds only on a hit (R136). -/
def validate (cfg : Config) (t : Byte) (n : Nat) : Verdict :=
  match lookupLen cfg.lenTable t with
  | none => .noEntry
  | some (lo, hi) => if n < lo.toNat ∨ hi.toNat < n then .outOfRange lo hi else .pass

end Sys2Proof.Machine
end

