-- ==== Sys2Proof/Machine/RecordDecoder.lean ====
section
/-! DEFINITION. The record decoder (spec/42_record_decoder.md R150 to R155) and the delivery of its
result (R158). -/

namespace Sys2Proof.Machine

/-- `decode(t, args)` (R150): an error result copies nothing (R157), an `OK` result carries the
arguments verbatim, zero-filled to `ARG_CAP + 1` cells (R153 to R155). -/
def decodeRecord (cfg : Config) (t : Byte) (args : List Byte) : Result :=
  match validate cfg t args.length with
  | .noEntry => .unsupported t args.length
  | .outOfRange lo hi => .badLen t args.length lo hi
  | .pass => .ok t args.length (padTo (cfg.argCap + 1) args)

/-- `deliver(r)`: `res <- r` (R158). -/
def deliver (r : Result) (b : Block) : Block := { b with res := some r }

end Sys2Proof.Machine
end

