-- ==== Sys2Proof/Machine/FrameReassembler.lean ====
section
/-! DEFINITION. The frame reassembler: `RX_BYTE` and its cases (spec/40_frame_reassembler.md R110 to
R119). Each case answers the block's new state and the event it raises. -/

namespace Sys2Proof.Machine

/-- `MemWrite(rxbuf, pos, b)` with `pos` moved to `next` (R112, R114, R118). -/
def storeRx (cfg : Config) (b : Byte) (next : Nat) (blk : Block) : Except Fault Block :=
  match bufWrite cfg .rx blk.rxbuf blk.pos b with
  | .error f => .error f
  | .ok m => .ok { blk with rxbuf := m, pos := next }

/-- A stored byte that raises no event. -/
def quietly : Except Fault Block → Except Fault (Block × Option Event)
  | .error f => .error f
  | .ok blk => .ok (blk, none)

/-- Searching (R112, R113): only `RX_MARKER` starts a frame; any other byte changes nothing. -/
def rxSearching (cfg : Config) (b : Byte) (blk : Block) : Except Fault (Block × Option Event) :=
  if b = cfg.rxMarker then quietly (storeRx cfg b 1 blk) else .ok (blk, none)

/-- The high length byte (R115): overflow (R116) is tested before empty (R117, R228). -/
def rxHighLength (cfg : Config) (b : Byte) (blk : Block) : Except Fault (Block × Option Event) :=
  match storeRx cfg b 3 blk with
  | .error f => .error f
  | .ok stored =>
    match bufRead .rx stored.rxbuf 1 with
    | .error f => .error f
    | .ok lo =>
      if cfg.maxFrame < totalOf lo b then
        .ok ({ stored with pos := 0 }, some (.frameOverflow (lengthOf lo b)))
      else if lengthOf lo b = 0 then .ok ({ stored with pos := 0 }, some .frameEmpty)
      else .ok (stored, none)

/-- The last byte of a frame (R119): decode, deliver, return to Searching. -/
def rxComplete (cfg : Config) (b : Byte) (total : Nat) (blk : Block) :
    Except Fault (Block × Option Event) :=
  match storeRx cfg b 0 blk with
  | .error f => .error f
  | .ok stored =>
    match bufRead .rx stored.rxbuf 3 with
    | .error f => .error f
    | .ok t =>
      match bufReadList .rx stored.rxbuf 4 (total - 4) with
      | .error f => .error f
      | .ok args =>
        let r := decodeRecord cfg t args
        .ok (deliver r stored, r.event)

/-- ReadingPayload (R118, R119). `pos >= total` cannot occur (R121) and is a model fault (R18). -/
def rxPayload (cfg : Config) (b : Byte) (blk : Block) : Except Fault (Block × Option Event) :=
  match bufRead .rx blk.rxbuf 1 with
  | .error f => .error f
  | .ok lo =>
    match bufRead .rx blk.rxbuf 2 with
    | .error f => .error f
    | .ok hi =>
      if blk.pos + 1 < totalOf lo hi then quietly (storeRx cfg b (blk.pos + 1) blk)
      else if blk.pos + 1 = totalOf lo hi then rxComplete cfg b (totalOf lo hi) blk
      else .error .posBeyondFrame

/-- The effect of an accepted byte, chosen by `pos` (R110). -/
def rxAccept (cfg : Config) (b : Byte) (blk : Block) : Except Fault (Block × Option Event) :=
  if blk.pos = 0 then rxSearching cfg b blk
  else if blk.pos = 1 then quietly (storeRx cfg b 2 blk)
  else if blk.pos = 2 then rxHighLength cfg b blk
  else rxPayload cfg b blk

/-- `RX_BYTE b` (R110): holds while a result waits. -/
def execRxByte (b : Byte) (s : State) : Outcome :=
  if s.blk.resValid then hold s else settle s (.rxByte b) (rxAccept s.cfg b s.blk)

end Sys2Proof.Machine
end

