-- ==== Sys2Proof/Machine/RecordEncoder.lean ====
section
/-! DEFINITION. The record encoder: `ENC_REQ` (spec/43_record_encoder.md R170 to R182) and
`OUT_TAKE` (R185). -/

namespace Sys2Proof.Machine

/-- The frame's bytes (R179, R180, R182): marker, `D mod 256`, `D div 256` with `D = 1 + L`, the type
byte, and the first `L` bytes of the padded data. -/
def frameBytes (k : FrameKind) (t : Byte) (len : Nat) (d : List Byte) : List Byte :=
  [k.marker, BitVec.ofNat 8 ((1 + len) % 256), BitVec.ofNat 8 ((1 + len) / 256), t] ++ d.take len

/-- The frame an accepted request builds (R180). -/
def requestFrame (cfg : Config) (k : FrameKind) (t : Byte) (encLen : Half) (encData : List Byte) :
    List Byte :=
  frameBytes k t (requestLength cfg k t encLen encData) (encOperand cfg encData)

/-- The effect of an accepted `ENC_REQ` (R170): `ENC_TOO_LONG` writes `tx_status` only (R178);
otherwise the frame is assembled (R180) and the TX path becomes busy (R181). -/
def encAccept (cfg : Config) (k : FrameKind) (t : Byte) (encLen : Half) (encData : List Byte)
    (blk : Block) : Except Fault (Block × Option Event) :=
  let len := requestLength cfg k t encLen encData
  if cfg.argCap < len then .ok ({ blk with txStatus := .tooLong }, some (.encTooLong len))
  else
    match bufWriteList cfg .tx blk.txbuf 0 (requestFrame cfg k t encLen encData) with
    | .error f => .error f
    | .ok m => .ok ({ blk with txbuf := m, txTotal := 4 + len, txIdx := 0, txStatus := .ok }, none)

/-- `ENC_REQ k t` (R170): refused when `enc_data` is longer than `ARG_CAP` (R93), holds while a frame
is being emitted. -/
def execEncReq (k : FrameKind) (t : Byte) (encLen : Half) (encData : List Byte) (s : State) :
    Outcome :=
  if (Instr.encReq k t encLen encData).wf s.cfg.argCap then
    if s.blk.txBusy then hold s
    else settle s (.encReq k t encLen encData) (encAccept s.cfg k t encLen encData s.blk)
  else .refused .encDataTooLong

/-- The TX path after one byte is taken (R185). -/
def outAdvance (blk : Block) : Block :=
  if blk.txIdx + 1 = blk.txTotal then { blk with txTotal := 0, txIdx := 0 }
  else { blk with txIdx := blk.txIdx + 1 }

/-- The byte an accepted `OUT_TAKE` reads (R185). `tx_idx >= tx_total` cannot occur (R184) and is a
model fault (R18). -/
def outByte (blk : Block) : Except Fault Byte :=
  if blk.txIdx < blk.txTotal then bufRead .tx blk.txbuf blk.txIdx else .error .txIdxBeyondFrame

/-- `OUT_TAKE` (R185): holds while the TX path is idle. -/
def execOutTake (s : State) : Outcome :=
  if s.blk.outValid then
    match outByte s.blk with
    | .error f => .fault f
    | .ok v => .next ((s.emit v s.blk.outLast).finish .outTake none (outAdvance s.blk))
  else hold s

end Sys2Proof.Machine
end

