-- ==== Sys2Proof/Machine/Control.lean ====
section
/-! DEFINITION. Dispatch and control: `RES_TAKE`, `RX_CLEAR` and `RESET`
(spec/44_dispatch_and_control.md R200 to R204). -/

namespace Sys2Proof.Machine

/-- `RES_TAKE` (R200): the handler receives the waiting result; holds while there is none. -/
def execResTake (s : State) : Outcome :=
  match s.blk.res with
  | none => hold s
  | some r => .next ((s.hand r).finish .resTake none { s.blk with res := none })

/-- `RX_CLEAR` (R202): `pos <- 0`; a waiting result stays (R203). -/
def execRxClear (s : State) : Outcome := .next (s.finish .rxClear none { s.blk with pos := 0 })

/-- `RESET` (R204): every state element to its value of R48; the configuration is not changed and no
event is raised. -/
def execReset (s : State) : Outcome := .next (s.finish .reset none Block.reset)

end Sys2Proof.Machine
end

