-- ==== Sys2Proof/Machine/Dispatch.lean ====
section
/-! DEFINITION. One arm per transaction of spec/opcode_table.json (R94). -/

namespace Sys2Proof.Machine

def exec (i : Instr) (s : State) : Host.Outcome State Fault Refusal :=
  match i with
  | .rxByte b => Sys2Proof.Machine.execRxByte b s
  | .rxClear => Sys2Proof.Machine.execRxClear s
  | .resTake => Sys2Proof.Machine.execResTake s
  | .encReq k t encLen encData => Sys2Proof.Machine.execEncReq k t encLen encData s
  | .outTake => Sys2Proof.Machine.execOutTake s
  | .reset => Sys2Proof.Machine.execReset s

end Sys2Proof.Machine
end

