-- ==== Sys2Proof/Machine/Fetch.lean ====
section
/-! DEFINITION. Which presented transaction transfers next (spec/00_scope.md R18, R19;
spec/30_encoding.md R91, R93; spec/60_exceptions.md R231). -/

namespace Sys2Proof.Machine

/-- The first presented transaction that does not hold; the ones before it stay presented. The
transactions of one port hold alike, so each port keeps its order. DESIGN CHOICE, safe
(notes/assumptions/3.md). -/
def fetchFrom (s : State) (kept : List Tx) : List Tx → Fetched
  | [] => .idle
  | t :: ts =>
    match decode t with
    | .error e => .reject (.badWord e)
    | .ok i => if holds s i then fetchFrom s (kept ++ [t]) ts else .run i (kept ++ ts)

/-- The fetch: an ill-formed configuration is refused by its check (R231). -/
def fetch (s : State) : Fetched :=
  match s.cfg.firstFailed with
  | some c => .reject (.illFormedConfig c)
  | none => fetchFrom s [] s.pending

/-- The transaction word alone is what an initiator presents next (notes/assumptions/4.md). -/
def presentOnly (s : State) (w : Nat) : State := s.withPending [Tx.ofWord w]

end Sys2Proof.Machine
end

