-- ==== Sys2Proof/Machine/Step.lean ====
section
/-! DEFINITION. One step of the machine (spec/00_scope.md R3, R18): the next transfer among the
presented transactions, or an idle step when none can transfer. -/

namespace Sys2Proof.Machine

def step (s : State) : Host.Outcome State Fault Refusal :=
  match fetch s with
  | .idle => hold s
  | .reject r => .refused r
  | .run i rest => exec i (s.withPending rest)

/-- The state in which the word of an opcode-table row, with `enc_len = 0` and `enc_data = []`, is
the one presented transaction. Every row has 16 bits. -/
def State.withFetchWord (s : State) (_nbits w : Nat) : State := presentOnly s w

end Sys2Proof.Machine
end

