-- ==== Sys2Proof/Machine/Pseudo.lean ====
section
/-! DEFINITION. The pseudo-operations `feed` and `send` (spec/30_encoding.md R100, R101), expanded
while the machine runs. -/

namespace Sys2Proof.Machine

/-- The `RES_TAKE` that `feed` inserts after an `RX_BYTE` that leaves `res != none` (R100). -/
def takeIfWaiting (s : State) : Outcome := if s.blk.resValid then exec .resTake s else .next s

/-- `feed` of one chunk (R100): the state reached, and the bytes still held. Bytes are left over
only when a result was already waiting before the first byte. DESIGN CHOICE, safe
(notes/assumptions/14.md). -/
def feed : List Byte → State → Host.Outcome (State × List Byte) Fault Refusal
  | [], s => .next (s, [])
  | b :: bs, s =>
    if s.blk.resValid then .next (s, b :: bs)
    else
      match andThen (exec (.rxByte b) s) takeIfWaiting with
      | .next s' => feed bs s'
      | .fault f => .fault f
      | .refused r => .refused r

/-- `out` repeated (R101). -/
def outTimes : Nat → State → Outcome
  | 0, s => .next s
  | n + 1, s => andThen (exec .outTake s) (outTimes n)

/-- `send` (R101): `enc`, then, if it was accepted with status OK, `out` until the frame has left.
R101 is silent on a `send` whose `enc` holds: the whole `send` is that hold, with no `out` and no
request left presented. DESIGN CHOICE, safe (notes/assumptions/19.md). -/
def send (k : FrameKind) (t : Byte) (encLen : Half) (encData : List Byte) (s : State) : Outcome :=
  if holds s (.encReq k t encLen encData) then hold s
  else
    andThen (exec (.encReq k t encLen encData) s) (fun s' =>
      if s'.blk.txStatus = .ok then outTimes s'.blk.txTotal s' else .next s')

end Sys2Proof.Machine
end

