-- ==== Sys2Proof/Machine/Assembler.lean ====
section
/-! DEFINITION. The written form of transactions and pseudo-operations (spec/30_encoding.md R99 to
R102), as a reader of one line's characters. -/

namespace Sys2Proof.Machine

/-- The tokens of a line. DESIGN CHOICE, safe: R99 names no separator but the comma, so blanks
separate words and mean nothing else (notes/assumptions/17.md). A character that is no letter, digit,
blank or punctuation of R99 makes no line (notes/assumptions/20.md). -/
inductive Token where
  | word (cs : List Char)
  | comma
  | equals
  | openBracket
  | closeBracket
  deriving DecidableEq, Repr

/-- A line of the written form: a transaction (R99), `feed` (R100) or `send` (R101). -/
inductive AsmLine where
  | transaction (i : Instr)
  | feed (bytes : List Byte)
  | send (k : FrameKind) (t : Byte) (encLen : Half) (encData : List Byte)
  deriving DecidableEq, Repr

/-- The punctuation of R99. -/
def punctuation (c : Char) : Option Token :=
  if c = ',' then some .comma
  else if c = '=' then some .equals
  else if c = '[' then some .openBracket
  else if c = ']' then some .closeBracket
  else none

/-- The word read so far, as a token. -/
def pendingWord (cur : List Char) : List Token := if cur = [] then [] else [.word cur]

/-- The tokens of a line, letters in lower case. R99 calls the mnemonic case-insensitive; the option
names and the letters of a number are read so too. DESIGN CHOICE, safe (notes/assumptions/20.md). -/
def lexLine (cur : List Char) : List Char → Option (List Token)
  | [] => some (pendingWord cur)
  | c :: cs =>
    if c.isAlphanum then lexLine (cur ++ [c.toLower]) cs
    else if c = ' ' then (lexLine [] cs).map (pendingWord cur ++ ·)
    else
      match punctuation c with
      | none => none
      | some tok => (lexLine [] cs).map (pendingWord cur ++ tok :: ·)

/-- The value of a digit in a base. -/
def digitValue (base : Nat) (c : Char) : Option Nat :=
  let v := if c.isDigit then c.toNat - '0'.toNat
    else if c.isLower then c.toNat - 'a'.toNat + 10 else base
  if v < base then some v else none

/-- The value of a row of digits after the value `acc`. -/
def digitsValue (base acc : Nat) : List Char → Option Nat
  | [] => some acc
  | c :: cs =>
    match digitValue base c with
    | none => none
    | some v => digitsValue base (acc * base + v) cs

/-- A number, in hex with `0x` or decimal (R99). -/
def numberOf : List Char → Option Nat
  | [] => none
  | '0' :: 'x' :: c :: cs => digitsValue 16 0 (c :: cs)
  | c :: cs => digitsValue 10 0 (c :: cs)

/-- A number that fits `w` bits; one that does not makes no line. DESIGN CHOICE, safe
(notes/assumptions/20.md). -/
def fieldOf (w : Nat) (cs : List Char) : Option (BitVec w) :=
  match numberOf cs with
  | none => none
  | some n => if n < 2 ^ w then some (BitVec.ofNat w n) else none

/-- The bytes of a bracketed list after its first bracket, and the tokens after it. R99 shows no list
with a comma before its closing bracket: `[1,]` is read as `[1]`. DESIGN CHOICE, safe
(notes/assumptions/20.md). -/
def listOf : List Token → Option (List Byte × List Token)
  | .closeBracket :: ts => some ([], ts)
  | .word w :: .closeBracket :: ts => (fieldOf 8 w).map (fun b => ([b], ts))
  | .word w :: .comma :: ts =>
    match fieldOf 8 w, listOf ts with
    | some b, some (bs, rest) => some (b :: bs, rest)
    | _, _ => none
  | _ => none

/-- `len=N`, or nothing, which stands for `len=0` (R99). -/
def lenOption : List Token → Option (Half × List Token)
  | .comma :: .word ['l', 'e', 'n'] :: .equals :: .word n :: ts =>
    (fieldOf 16 n).map (fun v => (v, ts))
  | ts => some (0, ts)

/-- `data=[...]`, or nothing, which stands for `data=[]` (R99). -/
def dataOption : List Token → Option (List Byte × List Token)
  | .comma :: .word ['d', 'a', 't', 'a'] :: .equals :: .openBracket :: ts => listOf ts
  | ts => some ([], ts)

/-- `cmd` or `rsp` (R99). -/
def kindOf (cs : List Char) : Option FrameKind :=
  if cs = ['c', 'm', 'd'] then some .cmd else if cs = ['r', 's', 'p'] then some .rsp else none

/-- The operands of `enc` and `send`: kind, type byte, `len=` and `data=`, in R99's order alone and
each after a comma. DESIGN CHOICE, safe (notes/assumptions/20.md). -/
def requestOf : List Token → Option (FrameKind × Byte × Half × List Byte)
  | .word k :: .word t :: ts =>
    match kindOf k, fieldOf 8 t, lenOption ts with
    | some k, some t, some (encLen, rest) =>
      match dataOption rest with
      | some (encData, []) => some (k, t, encLen, encData)
      | _ => none
    | _, _, _ => none
  | _ => none

/-- The line a row of tokens stands for (R99 to R101); any other row is none (R102). -/
def lineOf : List Token → Option AsmLine
  | [.word ['r', 'x'], .word b] => (fieldOf 8 b).map (fun b => .transaction (.rxByte b))
  | [.word ['c', 'l', 'e', 'a', 'r']] => some (.transaction .rxClear)
  | [.word ['t', 'a', 'k', 'e']] => some (.transaction .resTake)
  | [.word ['o', 'u', 't']] => some (.transaction .outTake)
  | [.word ['r', 'e', 's', 'e', 't']] => some (.transaction .reset)
  | .word ['e', 'n', 'c'] :: ts =>
    (requestOf ts).map (fun r => .transaction (.encReq r.1 r.2.1 r.2.2.1 r.2.2.2))
  | .word ['s', 'e', 'n', 'd'] :: ts =>
    (requestOf ts).map (fun r => .send r.1 r.2.1 r.2.2.1 r.2.2.2)
  | .word ['f', 'e', 'e', 'd'] :: .openBracket :: ts =>
    match listOf ts with
    | some (bs, []) => some (.feed bs)
    | _ => none
  | _ => none

/-- A line of characters, assembled. -/
def assemble (cs : List Char) : Option AsmLine := (lexLine [] cs).bind lineOf

/-- The effect of a line: the state reached, and the bytes of a `feed` still held. A transaction or a
`send` that holds changes nothing and leaves no request presented. DESIGN CHOICE, safe
(notes/assumptions/19.md). -/
def AsmLine.run (line : AsmLine) (s : State) : Host.Outcome (State × List Byte) Fault Refusal :=
  let whole (o : Outcome) : Host.Outcome (State × List Byte) Fault Refusal :=
    match o with
    | .next s' => .next (s', [])
    | .fault f => .fault f
    | .refused r => .refused r
  match line with
  | .transaction i => whole (exec i s)
  | .feed bs => Machine.feed bs s
  | .send k t encLen encData => whole (Machine.send k t encLen encData s)

end Sys2Proof.Machine
end

