-- ==== Sys2Proof/Machine/Ports.lean ====
section
/-! DEFINITION. The block at its ports (spec/30_encoding.md R90, R91; spec/44_dispatch_and_control.md
R208): the output pins of a state, and one clock edge as a sequence of transactions. -/

namespace Sys2Proof.Machine

/-- The input pins in one cycle (R90). -/
structure Pins where
  rst : Bool := false
  inValid : Bool := false
  inData : Byte := 0
  rxClear : Bool := false
  resReady : Bool := false
  encValid : Bool := false
  encKind : FrameKind := .cmd
  encType : Byte := 0
  encLen : Half := 0
  encData : List Byte := []
  outReady : Bool := false
  deriving DecidableEq, Repr

/-- The output pins (R90). -/
structure PortOutputs where
  inReady : Bool
  resValid : Bool
  bus : ResultBus
  encReady : Bool
  txStatus : BitVec 1
  outValid : Bool
  outData : Byte
  outLast : Bool
  status : Byte
  deriving DecidableEq, Repr

/-- The output pins of a state (R38 to R40, R44, R95, R98); `rxClear` is the cycle's `rx_clear`. -/
def portOutputs (s : State) (rxClear : Bool) : Except Fault PortOutputs :=
  match s.blk.outData with
  | .error f => .error f
  | .ok v => .ok {
      inReady := s.blk.inReady rxClear
      resValid := s.blk.resValid
      bus := resultBus s.cfg s.blk.res
      encReady := s.blk.encReady
      txStatus := s.blk.txStatus.bit
      outValid := s.blk.outValid
      outData := v
      outLast := s.blk.outLast
      status := s.status }

/-- A transaction when its condition holds. -/
def onlyIf (c : Bool) (i : Instr) : List Instr := if c then [i] else []

/-- The RX-path transactions of a cycle without reset (R91, R208). A result taken in a cycle with
`rx_clear` leaves beside the clear. DEDUCED, safe (notes/assumptions/11.md). -/
def rxTransfers (p : Pins) (s : State) : List Instr :=
  onlyIf p.rxClear .rxClear ++ onlyIf (p.resReady && s.blk.resValid) .resTake ++
    onlyIf (p.inValid && s.blk.inReady p.rxClear) (.rxByte p.inData)

/-- The TX-path transactions of a cycle without reset (R91, R208). -/
def txTransfers (p : Pins) (s : State) : List Instr :=
  onlyIf (p.encValid && s.blk.encReady) (.encReq p.encKind p.encType p.encLen p.encData) ++
    onlyIf (p.outReady && s.blk.outValid) .outTake

/-- The transactions of one cycle; `RESET` replaces every other one (R208). RX stands before TX, an
order R71 says has no effect. DEDUCED, safe (notes/assumptions/12.md). -/
def transfers (p : Pins) (s : State) : List Instr :=
  if p.rst then [.reset] else rxTransfers p s ++ txTransfers p s

/-- Transactions one after another. -/
def execAll : List Instr → State → Outcome
  | [], s => .next s
  | i :: is, s => andThen (exec i s) (execAll is)

/-- One rising edge of `clk` (R91, R208). -/
def clockEdge (p : Pins) (s : State) : Outcome :=
  match s.cfg.firstFailed with
  | some c => .refused (.illFormedConfig c)
  | none => execAll (transfers p s) s

/-- A configuration change under `rst = 1` (R254, R262): the platform's move and no transaction. The
block leaves it in the reset state; the next fetch refuses a configuration that fails a check. -/
def State.reconfigure (cfg : Config) (s : State) : State := { s with cfg := cfg, blk := Block.reset }

end Sys2Proof.Machine
end

