-- ==== Sys2Proof/Safety.lean ====
section
/-! DEFINITION. What claims rest on: the invariants of R121 and R184 with the form of a waiting
result (R156), the end of a run (R20), and runs with the host's duties (R260, R261). -/

namespace Sys2Proof.Machine

/-- A result the decoder can deliver (R156): its count is within `ARG_CAP`, its form is the verdict
of `validate`, and an `OK` result has `ARG_CAP + 1` cells, zero from index `n` on. -/
def Result.Sound (cfg : Config) : Result → Prop
  | .ok t n a => n ≤ cfg.argCap ∧ validate cfg t n = .pass ∧ a.length = cfg.argCap + 1 ∧
      ∀ i, n ≤ i → i ≤ cfg.argCap → a[i]? = some 0x00#8
  | .unsupported t n => n ≤ cfg.argCap ∧ validate cfg t n = .noEntry
  | .badLen t n lo hi => n ≤ cfg.argCap ∧ validate cfg t n = .outOfRange lo hi

/-- A buffer's form: canonical, and only cells of the buffer are listed (R60). -/
structure BufSound (cfg : Config) (m : Memory) : Prop where
  canonical : m.wf
  inside : ∀ c ∈ m, c.1 < cfg.maxFrame

/-- The RX path's invariant (R121, R200): the cells below `pos` are written and start with the
marker, a frame past its length field has a legal length and `pos < total`, and a waiting result is
sound and found in Searching. -/
structure RxSound (cfg : Config) (b : Block) : Prop where
  buffer : BufSound cfg b.rxbuf
  written : ∀ i, i < b.pos → (memRead b.rxbuf i).isSome
  marker : 0 < b.pos → memRead b.rxbuf 0 = some cfg.rxMarker
  frame : 3 ≤ b.pos → ∃ lo hi, memRead b.rxbuf 1 = some lo ∧ memRead b.rxbuf 2 = some hi ∧
    1 ≤ lengthOf lo hi ∧ b.pos < totalOf lo hi ∧ totalOf lo hi ≤ cfg.maxFrame
  searching : b.res.isSome → b.pos = 0
  result : ∀ r, b.res = some r → r.Sound cfg

/-- The TX path's invariant (R36, R184): while a frame is emitted, every cell below `tx_total` is
written, the header is a marker and the length of the frame, `tx_idx` is inside, and `tx_status` is
`ENC_OK`. -/
structure TxSound (cfg : Config) (b : Block) : Prop where
  buffer : BufSound cfg b.txbuf
  idle : b.txTotal = 0 → b.txIdx = 0
  index : b.txTotal ≠ 0 → b.txIdx < b.txTotal
  size : b.txTotal ≠ 0 → 4 ≤ b.txTotal ∧ b.txTotal ≤ cfg.maxFrame
  written : ∀ i, i < b.txTotal → (memRead b.txbuf i).isSome
  header : b.txTotal ≠ 0 → ∃ k lo hi, memRead b.txbuf 0 = some (FrameKind.marker k) ∧
    memRead b.txbuf 1 = some lo ∧ memRead b.txbuf 2 = some hi ∧ totalOf lo hi = b.txTotal
  status : b.txTotal ≠ 0 → b.txStatus = .ok

/-- The machine's invariant. -/
structure State.Inv (s : State) : Prop where
  config : s.cfg.WellFormed
  rx : RxSound s.cfg s.blk
  tx : TxSound s.cfg s.blk

/-- Two states that differ at most in stale cells (R75): cells of `rxbuf` from `pos` on and cells of
`txbuf` from `tx_total` on. -/
structure SameUpToStale (s t : State) : Prop where
  cfg : t.cfg = s.cfg
  pos : t.blk.pos = s.blk.pos
  rxbuf : ∀ n, n < s.blk.pos → memRead t.blk.rxbuf n = memRead s.blk.rxbuf n
  res : t.blk.res = s.blk.res
  txbuf : ∀ n, n < s.blk.txTotal → memRead t.blk.txbuf n = memRead s.blk.txbuf n
  txTotal : t.blk.txTotal = s.blk.txTotal
  txIdx : t.blk.txIdx = s.blk.txIdx
  txStatus : t.blk.txStatus = s.blk.txStatus
  pending : t.pending = s.pending
  handed : t.handed = s.handed
  emitted : t.emitted = s.emitted
  trace : t.trace = s.trace

/-- The end of a run (R20); a partial frame may be left. -/
def State.ended (s : State) : Bool := s.pending.isEmpty && !s.blk.resValid && !s.blk.txBusy

/-- DESIGN CHOICE (notes/assumptions/15.md): fairness is stated over runs and enforced by no step.
A run: each state follows from the one before by a step or by an initiator presenting a
transaction (R16, R264). -/
def IsRun (r : Nat → State) : Prop :=
  ∀ n, step (r n) = .next (r (n + 1)) ∨ ∃ t, r (n + 1) = (r n).present t

/-- The handler's duty (R260): a waiting result is taken or dropped by `RESET` eventually. -/
def HandlerFair (r : Nat → State) : Prop := ∀ n, ∃ m, n ≤ m ∧ (r m).blk.resValid = false

/-- The sink's duty (R261): a frame being emitted leaves or is dropped by `RESET` eventually. -/
def SinkFair (r : Nat → State) : Prop := ∀ n, ∃ m, n ≤ m ∧ (r m).blk.txBusy = false

end Sys2Proof.Machine
end

