-- ==== Sys2Proof/Certificates/Slice0/Obligations.lean ====
section
/-! DEFINITION. The statements for the provers, grouped as spec/ groups its rules. Every statement
about a state holds for every configuration that state carries. -/

open Sys2Proof Sys2Proof.Machine

/-! ### Encodings (spec/30_encoding.md) -/

/-- The words of spec/95_test_vectors.md V50, the accepted and the refused ones (R92 to R94). -/
def Obligations.WordsOfTheSpecDecode : Prop :=
  decode (Tx.ofWord 0x103C) = .ok (.rxByte 0x3C#8) ∧
  decode (Tx.ofWord 0x10FF) = .ok (.rxByte 0xFF#8) ∧
  decode (Tx.ofWord 0x2000) = .ok .rxClear ∧
  decode (Tx.ofWord 0x3000) = .ok .resTake ∧
  decode (Tx.ofWord 0x4007) = .ok (.encReq .cmd 0x07#8 0 []) ∧
  decode (Tx.ofWord 0x41FF) = .ok (.encReq .rsp 0xFF#8 0 []) ∧
  decode (Tx.ofWord 0x5000) = .ok .outTake ∧
  decode (Tx.ofWord 0x6000) = .ok .reset ∧
  ∀ w ∈ [0x0000, 0x0123, 0x7000, 0xF000, 0xFFFF, 0x1100, 0x1200, 0x2001, 0x3100, 0x5001, 0x6080,
      0x4200, 0x4E00], ∃ e, decode (Tx.ofWord w) = .error e

/-- Decoding an encoded transaction gives it back, for every operand value (R92, R94, R97). -/
def Obligations.DecodeOfEncodeIsTheTransaction : Prop :=
  ∀ i : Instr, decode (encode i) = .ok i

/-- The opcode map of R94, row by row; a word that matches no row is refused. -/
def Obligations.DecoderFollowsTheOpcodeMap : Prop :=
  ∀ x : Tx,
    (x.word &&& 0xFF00#16 = 0x1000#16 → decode x = .ok (.rxByte (x.word.extractLsb' 0 8))) ∧
    (x.word &&& 0xFFFF#16 = 0x2000#16 → decode x = .ok .rxClear) ∧
    (x.word &&& 0xFFFF#16 = 0x3000#16 → decode x = .ok .resTake) ∧
    (x.word &&& 0xFE00#16 = 0x4000#16 → decode x = .ok (.encReq
      (if x.word.extractLsb' 8 1 = 0 then .cmd else .rsp) (x.word.extractLsb' 0 8)
      x.encLen x.encData)) ∧
    (x.word &&& 0xFFFF#16 = 0x5000#16 → decode x = .ok .outTake) ∧
    (x.word &&& 0xFFFF#16 = 0x6000#16 → decode x = .ok .reset) ∧
    (x.word &&& 0xFF00#16 ≠ 0x1000#16 → x.word &&& 0xFFFF#16 ≠ 0x2000#16 →
      x.word &&& 0xFFFF#16 ≠ 0x3000#16 → x.word &&& 0xFE00#16 ≠ 0x4000#16 →
      x.word &&& 0xFFFF#16 ≠ 0x5000#16 → x.word &&& 0xFFFF#16 ≠ 0x6000#16 →
      ∃ e, decode x = .error e)

/-- R93: a reserved `op`, a nonzero `z`, a nonzero `k` outside `ENC_REQ`, or a nonzero `b` outside
`RX_BYTE` and `ENC_REQ` is refused, and so is an `ENC_REQ` with more than `ARG_CAP` data bytes, also while a frame is being
emitted (DEDUCED, notes/assumptions/13.md). -/
def Obligations.ReservedAndMalformedAreRefused : Prop :=
  (∀ x : Tx,
    (x.word.extractLsb' 12 4 = 0 ∨ 7 ≤ (x.word.extractLsb' 12 4).toNat ∨
      x.word.extractLsb' 9 3 ≠ 0 ∨
      (x.word.extractLsb' 8 1 ≠ 0 ∧ x.word.extractLsb' 12 4 ≠ 4) ∨
      (x.word.extractLsb' 0 8 ≠ 0 ∧ x.word.extractLsb' 12 4 ≠ 1 ∧ x.word.extractLsb' 12 4 ≠ 4)) →
    ∃ e, decode x = .error e) ∧
  ∀ (k : FrameKind) (t : Byte) (encLen : Half) (encData : List Byte) (s : State),
    s.cfg.argCap < encData.length → exec (.encReq k t encLen encData) s = .refused .encDataTooLong

/-- A decoded transaction encodes to the word it was decoded from: no bit of a word is dropped. -/
def Obligations.DecodedTransactionEncodesToItsWord : Prop :=
  ∀ (x : Tx) (i : Instr), decode x = .ok i → (encode i).word = x.word

/-- R99's written forms, one line of each row, with a decimal number, an omitted option and capital
letters, and a `feed` and a `send` line (R100, R101). DESIGN CHOICE for the blanks
(notes/assumptions/17.md) and for capital letters inside a number (notes/assumptions/20.md). -/
def Obligations.WrittenFormsAssemble : Prop :=
  assemble ['R', 'X', ' ', '0', 'x', '3', 'C'] = some (.transaction (.rxByte 0x3C#8)) ∧
  assemble ['r', 'x', ' ', '6', '0'] = some (.transaction (.rxByte 60)) ∧
  assemble ['c', 'l', 'e', 'a', 'r'] = some (.transaction .rxClear) ∧
  assemble ['t', 'a', 'k', 'e'] = some (.transaction .resTake) ∧
  assemble ['e', 'n', 'c', ' ', 'c', 'm', 'd', ' ', '0', 'x', '0', '1', ',', ' ', 'l', 'e', 'n', '=',
    '2', ',', ' ', 'd', 'a', 't', 'a', '=', '[', '0', 'x', 'A', 'A', ',', ' ', '7', ']'] =
    some (.transaction (.encReq .cmd 0x01#8 2 [0xAA#8, 7])) ∧
  assemble ['e', 'n', 'c', ' ', 'r', 's', 'p', ' ', '0', 'x', '0', '0'] =
    some (.transaction (.encReq .rsp 0x00#8 0 [])) ∧
  assemble ['o', 'u', 't'] = some (.transaction .outTake) ∧
  assemble ['r', 'e', 's', 'e', 't'] = some (.transaction .reset) ∧
  assemble ['f', 'e', 'e', 'd', ' ', '[', '1', ',', '2', ']'] = some (.feed [1, 2]) ∧
  assemble ['s', 'e', 'n', 'd', ' ', 'r', 's', 'p', ' ', '0', 'x', '8', '0', ',', ' ', 'l', 'e', 'n',
    '=', '1', ',', ' ', 'd', 'a', 't', 'a', '=', '[', '0', 'x', '4', '2', ']'] =
    some (.send .rsp 0x80#8 1 [0x42#8])

/-! ### The step (spec/00_scope.md R18, R19; spec/60_exceptions.md R231) -/

/-- The presented transaction that transfers is the first that does not hold: the step is `exec` of
the transaction its word decodes to, with the request removed. DESIGN CHOICE
(notes/assumptions/3.md) for the order among ready requests. -/
def Obligations.StepRunsThePresentedTransaction : Prop :=
  ∀ (s : State) (ahead rest : List Tx) (x : Tx) (i : Instr),
    s.cfg.WellFormed → s.pending = ahead ++ x :: rest →
    (∀ y ∈ ahead, ∃ j, decode y = .ok j ∧ holds s j = true) →
    decode x = .ok i → holds s i = false →
    step s = exec i (s.withPending (ahead ++ rest))

/-- When every presented transaction holds, or none is presented, a step changes nothing (R18, R237).
DESIGN CHOICE (notes/assumptions/2.md): the hold is a next state equal to the state. -/
def Obligations.StepIdlesWhenEveryRequestHolds : Prop :=
  ∀ s : State, s.cfg.WellFormed →
    (∀ y ∈ s.pending, ∃ j, decode y = .ok j ∧ holds s j = true) → step s = .next s

/-- R231: a reserved or malformed word, an overlong `enc_data` and an ill-formed configuration are
refused, and the refusal stands for the whole run. DESIGN CHOICE: the presented transaction is the
first one (notes/assumptions/3.md), the check named is the first failed (notes/assumptions/10.md),
and overlong data is refused before the hold (DEDUCED, notes/assumptions/13.md). -/
def Obligations.RefusalsStandForTheWholeRun : Prop :=
  (∀ (s : State) (c : ConfigCheck) (n : Nat), s.cfg.firstFailed = some c →
    core.run (n + 1) s = .refused (.illFormedConfig c)) ∧
  (∀ s : State, s.cfg.maxFrame < 4 ∨ 65538 < s.cfg.maxFrame →
    s.cfg.firstFailed = some .maxFrameRange) ∧
  (∀ (s : State) (x : Tx) (rest : List Tx) (e : DecodeError) (n : Nat), s.cfg.WellFormed →
    s.pending = x :: rest → decode x = .error e →
    core.run (n + 1) s = .refused (.badWord e)) ∧
  ∀ (s : State) (x : Tx) (rest : List Tx) (k : FrameKind) (t : Byte) (encLen : Half)
    (encData : List Byte) (n : Nat), s.cfg.WellFormed → s.pending = x :: rest →
    decode x = .ok (.encReq k t encLen encData) → s.cfg.argCap < encData.length →
    core.run (n + 1) s = .refused .encDataTooLong

/-- The configuration checks are those of R6, R130 and R171. -/
def Obligations.WellFormedConfigurationMeetsEveryCheck : Prop :=
  ∀ cfg : Config, cfg.WellFormed ↔
    (4 ≤ cfg.maxFrame ∧ cfg.maxFrame ≤ 65538) ∧
    (cfg.lenTable.map LenEntry.id).Nodup ∧
    (∀ e ∈ cfg.lenTable, e.min.toNat ≤ e.max.toNat) ∧
    (cfg.rxKind = .cmd → ∃ e ∈ cfg.lenTable, e.id = 0x07#8 ∧ e.min = 0#16) ∧
    (cfg.encTable.map EncEntry.code).Nodup ∧
    (∀ e ∈ cfg.encTable, ∀ n, e.mode = .fixed n ∨ e.mode = .selfInfo n → n ≤ cfg.argCap) ∧
    ⟨0x00#8, .fixed 0⟩ ∈ cfg.encTable ∧
    ∀ c, cfg.errRspCode = some c → ⟨c, .fixed 1⟩ ∈ cfg.encTable

/-- The hold table of R19: when each transaction holds, and that a held transaction changes nothing.
DESIGN CHOICE (notes/assumptions/2.md) for the last clause. -/
def Obligations.HeldTransactionsChangeNothing : Prop :=
  ∀ s : State,
    (∀ b, holds s (.rxByte b) = true ↔ s.blk.res ≠ none) ∧
    (holds s .resTake = true ↔ s.blk.res = none) ∧
    (∀ k t encLen encData, encData.length ≤ s.cfg.argCap →
      (holds s (.encReq k t encLen encData) = true ↔ s.blk.txTotal ≠ 0)) ∧
    (holds s .outTake = true ↔ s.blk.txTotal = 0) ∧
    holds s .rxClear = false ∧ holds s .reset = false ∧
    ∀ i, holds s i = true → exec i s = .next s

/-- What lifts each hold (R19): `RES_TAKE` and `RESET` lift `RX_BYTE`'s, the last `OUT_TAKE` and
`RESET` lift `ENC_REQ`'s, an accepted request lifts `OUT_TAKE`'s. -/
def Obligations.HoldsAreLifted : Prop :=
  (∀ (s t : State) (b : Byte), exec .resTake s = .next t → holds t (.rxByte b) = false) ∧
  (∀ s : State, ∃ t, exec .reset s = .next t ∧ (∀ b, holds t (.rxByte b) = false) ∧
    ∀ k y encLen encData, holds t (.encReq k y encLen encData) = false) ∧
  (∀ s t : State, s.blk.txIdx + 1 = s.blk.txTotal → exec .outTake s = .next t →
    ∀ k y encLen encData, holds t (.encReq k y encLen encData) = false) ∧
  (∀ (s t : State) (k : FrameKind) (y : Byte) (encLen : Half) (encData : List Byte),
    requestLength s.cfg k y encLen encData ≤ s.cfg.argCap →
    exec (.encReq k y encLen encData) s = .next t → holds t .outTake = false) ∧
  ∀ (s t : State) (b lo hi : Byte), s.blk.res = none → 3 ≤ s.blk.pos →
    memRead s.blk.rxbuf 1 = some lo → memRead s.blk.rxbuf 2 = some hi →
    s.blk.pos + 1 = totalOf lo hi → exec (.rxByte b) s = .next t → holds t .resTake = false

/-! ### Frame reassembler (spec/40_frame_reassembler.md) -/

/-- R112 and R113: in Searching the expected marker is stored and starts a frame; any other byte
changes no state. -/
def Obligations.SearchingTakesOnlyTheMarker : Prop :=
  ∀ (s : State) (b marker : Byte),
    (s.cfg.rxKind = .cmd ∧ marker = 0x3C#8) ∨ (s.cfg.rxKind = .rsp ∧ marker = 0x3E#8) →
    s.blk.res = none → s.blk.pos = 0 → 4 ≤ s.cfg.maxFrame →
    exec (.rxByte b) s =
      if b = marker then
        .next { s with
          blk := { s.blk with rxbuf := memWrite s.blk.rxbuf 0 b, pos := 1 },
          trace := s.trace ++ [⟨.rxByte b, none⟩] }
      else .next { s with trace := s.trace ++ [⟨.rxByte b, none⟩] }

/-- R114: the low length byte. -/
def Obligations.LowLengthByteIsStored : Prop :=
  ∀ (s : State) (b : Byte), s.blk.res = none → s.blk.pos = 1 → 4 ≤ s.cfg.maxFrame →
    exec (.rxByte b) s =
      .next { s with
        blk := { s.blk with rxbuf := memWrite s.blk.rxbuf 1 b, pos := 2 },
        trace := s.trace ++ [⟨.rxByte b, none⟩] }

/-- R115, R116 and R117: the high length byte completes the length, little-endian and without wrap;
a frame past the capacity and an empty one are dropped, any other goes on to its body. -/
def Obligations.HighLengthByteDecidesTheFrame : Prop :=
  ∀ (s : State) (b lo : Byte), s.blk.res = none → s.blk.pos = 2 → 4 ≤ s.cfg.maxFrame →
    memRead s.blk.rxbuf 1 = some lo →
    exec (.rxByte b) s =
      if s.cfg.maxFrame < 3 + (lo.toNat + 256 * b.toNat) then
        .next { s with
          blk := { s.blk with rxbuf := memWrite s.blk.rxbuf 2 b, pos := 0 },
          trace := s.trace ++ [⟨.rxByte b, some (.frameOverflow (lo.toNat + 256 * b.toNat))⟩] }
      else if lo.toNat + 256 * b.toNat = 0 then
        .next { s with
          blk := { s.blk with rxbuf := memWrite s.blk.rxbuf 2 b, pos := 0 },
          trace := s.trace ++ [⟨.rxByte b, some .frameEmpty⟩] }
      else
        .next { s with
          blk := { s.blk with rxbuf := memWrite s.blk.rxbuf 2 b, pos := 3 },
          trace := s.trace ++ [⟨.rxByte b, none⟩] }

/-- R118: a body byte that does not end the frame. -/
def Obligations.BodyByteIsStored : Prop :=
  ∀ (s : State) (b lo hi : Byte), s.blk.res = none → 3 ≤ s.blk.pos →
    s.blk.pos < s.cfg.maxFrame → memRead s.blk.rxbuf 1 = some lo →
    memRead s.blk.rxbuf 2 = some hi → s.blk.pos + 1 < 3 + (lo.toNat + 256 * hi.toNat) →
    exec (.rxByte b) s =
      .next { s with
        blk := { s.blk with
          rxbuf := memWrite s.blk.rxbuf s.blk.pos b, pos := s.blk.pos + 1 },
        trace := s.trace ++ [⟨.rxByte b, none⟩] }

/-- R119: the last byte of a frame is stored, the type byte and the arguments are decoded, the result
is delivered with the event it raises, and the reassembler returns to Searching. -/
def Obligations.LastByteDeliversTheDecodedFrame : Prop :=
  ∀ (s : State) (b lo hi t : Byte) (args : List Byte), s.blk.res = none → 3 ≤ s.blk.pos →
    s.blk.pos < s.cfg.maxFrame → memRead s.blk.rxbuf 1 = some lo →
    memRead s.blk.rxbuf 2 = some hi → s.blk.pos + 1 = 3 + (lo.toNat + 256 * hi.toNat) →
    memRead (memWrite s.blk.rxbuf s.blk.pos b) 3 = some t →
    args.length = s.blk.pos - 3 →
    (∀ n, n < args.length → memRead (memWrite s.blk.rxbuf s.blk.pos b) (4 + n) = args[n]?) →
    exec (.rxByte b) s =
      .next { s with
        blk := { s.blk with
          rxbuf := memWrite s.blk.rxbuf s.blk.pos b,
          res := some (decodeRecord s.cfg t args), pos := 0 },
        trace := s.trace ++ [⟨.rxByte b,
          (match decodeRecord s.cfg t args with
            | .ok _ _ _ => none
            | .unsupported y n => some (.unsupported y n)
            | .badLen y n l h => some (.badLen y n l h))⟩] }

/-- R120: inside a frame every byte, a marker too, is stored at `pos`, and starts nothing: `pos`
moves on by one or the frame has ended or was dropped. -/
def Obligations.BytesInsideAFrameAreData : Prop :=
  ∀ (s : State) (b : Byte), s.Inv → s.blk.res = none → s.blk.pos ≠ 0 →
    ∃ t, exec (.rxByte b) s = .next t ∧ memRead t.blk.rxbuf s.blk.pos = some b ∧
      (t.blk.pos = s.blk.pos + 1 ∨ t.blk.pos = 0)

/-- R42: an `RX_BYTE` advances `pos` by one, returns it to 0 or leaves it at 0, and `pos` never
passes `MAX_FRAME - 1`. -/
def Obligations.PositionAdvancesByOneOrReturns : Prop :=
  ∀ (s t : State) (b : Byte), s.Inv → s.blk.res = none → exec (.rxByte b) s = .next t →
    (t.blk.pos = s.blk.pos + 1 ∨ t.blk.pos = 0) ∧ t.blk.pos ≤ s.cfg.maxFrame - 1

/-- Frame of `RX_BYTE`: of the buffers only the cell `rxbuf[pos]` may change, and none when the byte
holds or is noise; the TX path, the configuration and the environment's records stay. -/
def Obligations.RxByteFrame : Prop :=
  ∀ (s t : State) (b : Byte), exec (.rxByte b) s = .next t →
    t.cfg = s.cfg ∧ t.pending = s.pending ∧ t.handed = s.handed ∧ t.emitted = s.emitted ∧
    t.blk.txbuf = s.blk.txbuf ∧ t.blk.txTotal = s.blk.txTotal ∧ t.blk.txIdx = s.blk.txIdx ∧
    t.blk.txStatus = s.blk.txStatus ∧
    (∀ n, n ≠ s.blk.pos → memRead t.blk.rxbuf n = memRead s.blk.rxbuf n) ∧
    (s.blk.res ≠ none ∨ (s.blk.pos = 0 ∧ b ≠ s.cfg.rxMarker) → t.blk = s.blk)

/-! ### Length validator and record decoder (spec/41, spec/42) -/

/-- R131 to R134: the verdicts, with inclusive bounds and the lookup before the bounds. -/
def Obligations.VerdictsOfTheLengthTable : Prop :=
  ∀ (cfg : Config) (t : Byte) (n : Nat),
    (lookupLen cfg.lenTable t = none → validate cfg t n = .noEntry) ∧
    ∀ lo hi, lookupLen cfg.lenTable t = some (lo, hi) →
      (n < lo.toNat ∨ n > hi.toNat → validate cfg t n = .outOfRange lo hi) ∧
      (lo.toNat ≤ n → n ≤ hi.toNat → validate cfg t n = .pass)

/-- R137: the verdict depends on the entry at the key alone, not on the order of the entries. -/
def Obligations.VerdictIgnoresTableOrder : Prop :=
  (∀ (cfg cfg' : Config) (t : Byte) (n : Nat),
    lookupLen cfg.lenTable t = lookupLen cfg'.lenTable t → validate cfg t n = validate cfg' t n) ∧
  ∀ (cfg cfg' : Config) (t : Byte) (n : Nat), (cfg.lenTable.map LenEntry.id).Nodup →
    cfg.lenTable.Perm cfg'.lenTable → validate cfg t n = validate cfg' t n

/-- R151 and R152: an unknown identifier gives `UNSUPPORTED(t, n)` and a count out of bounds
`BAD_LEN(t, n, lo, hi)`, and no argument byte reaches either: two argument lists of one length give
one result. -/
def Obligations.ErrorResultsCopyNothing : Prop :=
  ∀ (cfg : Config) (t : Byte) (args : List Byte),
    (validate cfg t args.length = .noEntry →
      decodeRecord cfg t args = .unsupported t args.length) ∧
    (∀ lo hi, validate cfg t args.length = .outOfRange lo hi →
      decodeRecord cfg t args = .badLen t args.length lo hi) ∧
    ∀ args' : List Byte, args'.length = args.length → validate cfg t args.length ≠ .pass →
      decodeRecord cfg t args' = decodeRecord cfg t args

/-- R153, R154 and R155: a decoded record carries its arguments verbatim, zero from index `n` to
`ARG_CAP`, the NUL guard at index `n` among them. -/
def Obligations.DecodedRecordIsVerbatimAndZeroFilled : Prop :=
  ∀ (cfg : Config) (t : Byte) (args : List Byte), args.length ≤ cfg.argCap →
    validate cfg t args.length = .pass →
    ∃ a, decodeRecord cfg t args = .ok t args.length a ∧ a.length = cfg.argCap + 1 ∧
      (∀ n, n < args.length → a[n]? = args[n]?) ∧
      (∀ n, args.length ≤ n → n ≤ cfg.argCap → a[n]? = some 0x00#8) ∧
      a[args.length]? = some 0x00#8

/-- R95 and R96: the result bus of each form. -/
def Obligations.ResultBusShowsTheResult : Prop :=
  ∀ cfg : Config,
    (resultBus cfg none = ⟨0, 0, 0, 0, 0, List.replicate (cfg.argCap + 1) 0⟩) ∧
    (∀ (t : Byte) (n : Nat), resultBus cfg (some (.unsupported t n)) =
      ⟨1, t, BitVec.ofNat 16 n, 0, 0, List.replicate (cfg.argCap + 1) 0⟩) ∧
    (∀ (t : Byte) (n : Nat) (lo hi : Half), resultBus cfg (some (.badLen t n lo hi)) =
      ⟨2, t, BitVec.ofNat 16 n, lo, hi, List.replicate (cfg.argCap + 1) 0⟩) ∧
    ∀ (t : Byte) (n : Nat) (a : List Byte), n ≤ a.length →
      ∃ cells, resultBus cfg (some (.ok t n a)) = ⟨0, t, BitVec.ofNat 16 n, 0, 0, cells⟩ ∧
        cells.length = cfg.argCap + 1 ∧
        ∀ m, m ≤ cfg.argCap → cells[m]? = if m < n then a[m]? else some 0x00#8

/-! ### Record encoder (spec/43_record_encoder.md) -/

/-- R173, R174, R175, R176 and R177: the argument length of a request. Commands, `EXPLICIT` codes
and codes without an entry take `enc_len`; `FIXED(m)` is `m`; `SELF_INFO(p)` is `p` and the bytes
before the first zero of `d[p..ARG_CAP)`, or all of them, so never above `ARG_CAP`. -/
def Obligations.ArgumentLengthFollowsTheMode : Prop :=
  ∀ (cfg : Config) (t : Byte) (encLen : Half) (encData : List Byte),
    requestLength cfg .cmd t encLen encData = encLen.toNat ∧
    (lookupEnc cfg.encTable t = none → requestLength cfg .rsp t encLen encData = encLen.toNat) ∧
    (lookupEnc cfg.encTable t = some .explicit →
      requestLength cfg .rsp t encLen encData = encLen.toNat) ∧
    (∀ m, lookupEnc cfg.encTable t = some (.fixed m) →
      requestLength cfg .rsp t encLen encData = m) ∧
    ∀ p, lookupEnc cfg.encTable t = some (.selfInfo p) → p ≤ cfg.argCap →
      ∃ n, requestLength cfg .rsp t encLen encData = p + n ∧ p + n ≤ cfg.argCap ∧
        (∀ j, j < n → (encOperand cfg encData)[p + j]? ≠ some 0x00#8) ∧
        (n < cfg.argCap - p → (encOperand cfg encData)[p + n]? = some 0x00#8)

/-- R172, R179, R180, R181 and R182: an accepted request whose arguments fit builds its frame in
`txbuf` and starts emission. The frame is the marker of its kind, the little-endian `1 + L`, the type
byte and the first `L` bytes of the data padded with zeros; cells past it stay. -/
def Obligations.AcceptedRequestBuildsItsFrame : Prop :=
  ∀ (s : State) (k : FrameKind) (t : Byte) (encLen : Half) (encData : List Byte) (len : Nat),
    4 ≤ s.cfg.maxFrame → encData.length ≤ s.cfg.argCap → s.blk.txTotal = 0 →
    requestLength s.cfg k t encLen encData = len → len ≤ s.cfg.argCap →
    ∃ m : Memory, exec (.encReq k t encLen encData) s =
        .next { s with
          blk := { s.blk with txbuf := m, txTotal := 4 + len, txIdx := 0, txStatus := .ok },
          trace := s.trace ++ [⟨.encReq k t encLen encData, none⟩] } ∧
      memRead m 0 = some (match k with | .cmd => 0x3C#8 | .rsp => 0x3E#8) ∧
      memRead m 1 = some (BitVec.ofNat 8 ((1 + len) % 256)) ∧
      memRead m 2 = some (BitVec.ofNat 8 ((1 + len) / 256)) ∧
      memRead m 3 = some t ∧
      (∀ n, n < len → memRead m (4 + n) = some (encData[n]?.getD 0x00#8)) ∧
      ∀ n, 4 + len ≤ n → memRead m n = memRead s.blk.txbuf n

/-- R178: a request whose argument length exceeds `ARG_CAP` sets `tx_status` and emits nothing. -/
def Obligations.TooLongRequestEmitsNothing : Prop :=
  ∀ (s : State) (k : FrameKind) (t : Byte) (encLen : Half) (encData : List Byte),
    encData.length ≤ s.cfg.argCap → s.blk.txTotal = 0 →
    s.cfg.argCap < requestLength s.cfg k t encLen encData →
    exec (.encReq k t encLen encData) s =
      .next { s with
        blk := { s.blk with txStatus := .tooLong },
        trace := s.trace ++ [⟨.encReq k t encLen encData,
          some (.encTooLong (requestLength s.cfg k t encLen encData))⟩] }

/-- R178 and R171: in a well-formed configuration only a length taken from the caller can be too
long. -/
def Obligations.OnlyExplicitLengthsAreTooLong : Prop :=
  ∀ (cfg : Config) (k : FrameKind) (t : Byte) (encLen : Half) (encData : List Byte),
    cfg.WellFormed → cfg.argCap < requestLength cfg k t encLen encData →
    (k = .cmd ∨ lookupEnc cfg.encTable t = none ∨ lookupEnc cfg.encTable t = some .explicit) ∧
    requestLength cfg k t encLen encData = encLen.toNat

/-- R185: an output byte is taken with its `out_last`; after the last one the TX path is idle. The
sink's record `emitted` is the model's (DEDUCED, notes/assumptions/7.md). -/
def Obligations.OutTakeEmitsTheNextByte : Prop :=
  ∀ (s : State) (v : Byte), s.blk.txIdx < s.blk.txTotal →
    memRead s.blk.txbuf s.blk.txIdx = some v →
    exec .outTake s =
      if s.blk.txIdx + 1 = s.blk.txTotal then
        .next { s with
          blk := { s.blk with txTotal := 0, txIdx := 0 }, emitted := s.emitted ++ [(v, true)],
          trace := s.trace ++ [⟨.outTake, none⟩] }
      else
        .next { s with
          blk := { s.blk with txIdx := s.blk.txIdx + 1 }, emitted := s.emitted ++ [(v, false)],
          trace := s.trace ++ [⟨.outTake, none⟩] }

/-- Frame of `ENC_REQ`: cells of `txbuf` outside the frame stored at `0 .. 3 + L` stay, all of them
when the request holds or is too long; the RX path, the configuration and the records stay. -/
def Obligations.EncReqFrame : Prop :=
  ∀ (s u : State) (k : FrameKind) (t : Byte) (encLen : Half) (encData : List Byte),
    exec (.encReq k t encLen encData) s = .next u →
    u.cfg = s.cfg ∧ u.pending = s.pending ∧ u.handed = s.handed ∧ u.emitted = s.emitted ∧
    u.blk.pos = s.blk.pos ∧ u.blk.rxbuf = s.blk.rxbuf ∧ u.blk.res = s.blk.res ∧
    (∀ n, 4 + requestLength s.cfg k t encLen encData ≤ n →
      memRead u.blk.txbuf n = memRead s.blk.txbuf n) ∧
    (s.blk.txTotal ≠ 0 → u = s) ∧
    (s.cfg.argCap < requestLength s.cfg k t encLen encData → u.blk.txbuf = s.blk.txbuf ∧
      u.blk.txTotal = s.blk.txTotal ∧ u.blk.txIdx = s.blk.txIdx)

/-- R101, R180 and R185 together: `send` of a request that fits, from an idle TX path, puts out
exactly the bytes of its frame in index order, `out_last` on the last one alone, and leaves the TX
path idle and the RX path untouched. The record `emitted` is the model's (DEDUCED,
notes/assumptions/7.md). -/
def Obligations.SendEmitsExactlyTheFrame : Prop :=
  ∀ (s : State) (k : FrameKind) (t : Byte) (encLen : Half) (encData : List Byte),
    4 ≤ s.cfg.maxFrame → encData.length ≤ s.cfg.argCap → s.blk.txTotal = 0 →
    requestLength s.cfg k t encLen encData ≤ s.cfg.argCap →
    ∃ u, send k t encLen encData s = .next u ∧
      u.emitted = s.emitted ++ (requestFrame s.cfg k t encLen encData).mapIdx (fun n v =>
        (v, n + 1 == 4 + requestLength s.cfg k t encLen encData)) ∧
      u.blk.txTotal = 0 ∧ u.blk.txIdx = 0 ∧ u.blk.txStatus = .ok ∧
      u.blk.pos = s.blk.pos ∧ u.blk.rxbuf = s.blk.rxbuf ∧ u.blk.res = s.blk.res ∧
      u.handed = s.handed ∧ u.cfg = s.cfg

/-! ### Dispatch and control (spec/44_dispatch_and_control.md), status (spec/10_state.md) -/

/-- R200: the handler receives the waiting result, and nothing else of the block changes. The
handler's record `handed` is the model's (DEDUCED, notes/assumptions/7.md). -/
def Obligations.ResTakeHandsTheResultOver : Prop :=
  ∀ (s : State) (r : Result), s.blk.res = some r →
    exec .resTake s =
      .next { s with
        blk := { s.blk with res := none }, handed := s.handed ++ [r],
        trace := s.trace ++ [⟨.resTake, none⟩] }

/-- R202 and R203: `RX_CLEAR` returns `pos` to 0 and keeps everything else, a waiting result too. -/
def Obligations.RxClearDropsThePartialFrame : Prop :=
  ∀ s : State,
    exec .rxClear s =
      .next { s with blk := { s.blk with pos := 0 }, trace := s.trace ++ [⟨.rxClear, none⟩] }

/-- R204: `RESET` from any state. That what handler and sink received and the earlier trace survive it
is the model's choice (DESIGN CHOICE, notes/assumptions/7.md). -/
def Obligations.ResetClearsTheBlock : Prop :=
  ∀ s : State,
    exec .reset s =
      .next { s with
        blk := { pos := 0, rxbuf := [], res := none, txbuf := [], txTotal := 0, txIdx := 0,
                 txStatus := .ok },
        trace := s.trace ++ [⟨.reset, none⟩] }

/-- R67: `RX_CLEAR` and `RESET` are idempotent on the block. -/
def Obligations.ClearAndResetAreIdempotent : Prop :=
  ∀ (i : Instr) (s t u : State), i = .rxClear ∨ i = .reset →
    exec i s = .next t → exec i t = .next u → u.blk = t.blk

/-- Frame of `RES_TAKE`, `RX_CLEAR` and `OUT_TAKE`: no cell of either buffer changes, and each
changes only `res`, only `pos`, or only `tx_total` and `tx_idx`. -/
def Obligations.TakeAndClearFrames : Prop :=
  ∀ s t : State,
    (exec .resTake s = .next t → t.cfg = s.cfg ∧ t.pending = s.pending ∧ t.emitted = s.emitted ∧
      t.blk = { s.blk with res := t.blk.res }) ∧
    (exec .rxClear s = .next t → t.cfg = s.cfg ∧ t.pending = s.pending ∧ t.emitted = s.emitted ∧
      t.handed = s.handed ∧ t.blk = { s.blk with pos := t.blk.pos }) ∧
    (exec .outTake s = .next t → t.cfg = s.cfg ∧ t.pending = s.pending ∧ t.handed = s.handed ∧
      t.blk = { s.blk with txTotal := t.blk.txTotal, txIdx := t.blk.txIdx })

/-- R44: the `STATUS` word, bit by bit; it hides `pos`, and after reset it is `0x00` or `0x08`. -/
def Obligations.StatusWordShowsTheFlags : Prop :=
  (∀ s : State, s.status.getLsbD 0 = s.blk.res.isSome ∧
    s.status.getLsbD 1 = decide (s.blk.txTotal ≠ 0) ∧
    s.status.getLsbD 2 = decide (s.blk.txStatus = .tooLong) ∧
    s.status.getLsbD 3 = decide (s.cfg.rxKind = .rsp) ∧
    (∀ n, 4 ≤ n → s.status.getLsbD n = false) ∧
    ∀ p, ({ s with blk := { s.blk with pos := p } } : State).status = s.status) ∧
  ∀ cfg : Config, (State.resetFor cfg).status =
    match cfg.rxKind with | .cmd => 0x00#8 | .rsp => 0x08#8

/-- R38, R39 and R40: the handshake signals and the output byte of a state; an idle TX path drives 0,
whatever its cells hold. The other output pins of R90 show the result bus of `res`, `tx_status` and
the `STATUS` word. -/
def Obligations.PortSignalsFollowTheState : Prop :=
  ∀ (s : State) (clear : Bool) (v : Byte),
    (s.blk.txTotal ≠ 0 → memRead s.blk.txbuf s.blk.txIdx = some v) →
    ∃ o, portOutputs s clear = .ok o ∧
      (o.inReady = true ↔ s.blk.res = none ∧ clear = false) ∧
      (o.resValid = true ↔ s.blk.res ≠ none) ∧
      (o.encReady = true ↔ s.blk.txTotal = 0) ∧
      (o.outValid = true ↔ s.blk.txTotal ≠ 0) ∧
      o.outData = (if s.blk.txTotal ≠ 0 then v else 0) ∧
      (o.outLast = true ↔ s.blk.txTotal ≠ 0 ∧ s.blk.txIdx = s.blk.txTotal - 1) ∧
      o.bus = resultBus s.cfg s.blk.res ∧
      o.txStatus = (match s.blk.txStatus with | .ok => 0#1 | .tooLong => 1#1) ∧
      o.status = s.status

/-- R48 and R250: the state elements and the derived signals after reset, under each
configuration. -/
def Obligations.ResetLeavesTheSpecsValues : Prop :=
  ∀ cfg : Config, ∃ o, portOutputs (State.resetFor cfg) false = .ok o ∧
    (State.resetFor cfg).blk.pos = 0 ∧
    (∀ n, memRead (State.resetFor cfg).blk.rxbuf n = none) ∧
    (State.resetFor cfg).blk.res = none ∧
    (∀ n, memRead (State.resetFor cfg).blk.txbuf n = none) ∧
    (State.resetFor cfg).blk.txTotal = 0 ∧ (State.resetFor cfg).blk.txIdx = 0 ∧
    (State.resetFor cfg).blk.txStatus = .ok ∧
    o.inReady = true ∧ o.resValid = false ∧ o.encReady = true ∧ o.outValid = false ∧
    o.outLast = false ∧ o.bus = ⟨0, 0, 0, 0, 0, List.replicate (cfg.argCap + 1) 0⟩ ∧
    (State.resetFor cfg).cfg = cfg ∧
    ∀ s t : State, exec .reset s = .next t →
      t.blk = (State.resetFor cfg).blk ∧ t.cfg = s.cfg

/-! ### Memory (spec/20_memory.md) -/

/-- R14 and R60: a row of bytes written to a buffer is read back from the same cells, in order, and
every cell outside the row stays. -/
def Obligations.BytesWrittenAreReadBack : Prop :=
  ∀ (cfg : Config) (buf : Buf) (m m' : Memory) (start : Nat) (vs : List Byte),
    bufWriteList cfg buf m start vs = .ok m' →
    bufReadList buf m' start vs.length = .ok vs ∧
    ∀ n, n < start ∨ start + vs.length ≤ n → memRead m' n = memRead m n

/-- The canonical form of both buffers survives every step, from every state. -/
def Obligations.StepKeepsBuffersCanonical : Prop :=
  ∀ s t : State, s.blk.rxbuf.wf → s.blk.txbuf.wf → step s = .next t →
    t.blk.rxbuf.wf ∧ t.blk.txbuf.wf

/-! ### The whole machine -/

/-- The machine's invariant holds after reset, under each well-formed configuration and under the
one `State.reset` carries (R121, R184; DESIGN CHOICE, notes/assumptions/1.md). -/
def Obligations.InvariantHoldsAtReset : Prop :=
  (∀ cfg : Config, cfg.WellFormed → (State.resetFor cfg).Inv) ∧ State.reset.Inv

/-- R121 and R184 as an invariant: every step keeps it. -/
def Obligations.StepKeepsTheInvariant : Prop :=
  ∀ s t : State, s.Inv → step s = .next t → t.Inv

/-- R232 with R121 and R184: from a state of the invariant no transaction and no step faults, so none
reads an unwritten cell. -/
def Obligations.NoModelFaultUnderTheInvariant : Prop :=
  ∀ s : State, s.Inv → (∀ (i : Instr) (f : Fault), exec i s ≠ .fault f) ∧ ∀ f, step s ≠ .fault f

/-- R17 and R262: no step changes the configuration. -/
def Obligations.ConfigurationNeverChanges : Prop :=
  ∀ s t : State, step s = .next t → t.cfg = s.cfg

/-- R71: an RX-path transaction and a TX-path transaction commute: after either order the block and
what handler and sink received (notes/assumptions/7.md) are the same. -/
def Obligations.RxAndTxTransactionsCommute : Prop :=
  ∀ (i j : Instr) (s si sj : State),
    ((∃ b, i = .rxByte b) ∨ i = .rxClear ∨ i = .resTake) →
    ((∃ k t encLen encData, j = .encReq k t encLen encData) ∨ j = .outTake) →
    exec i s = .next si → exec j s = .next sj →
    ∃ u v, exec j si = .next u ∧ exec i sj = .next v ∧
      u.blk = v.blk ∧ u.handed = v.handed ∧ u.emitted = v.emitted ∧ u.cfg = v.cfg ∧
      u.pending = v.pending

/-- R16: the RX path's transactions leave `txbuf`, `tx_total`, `tx_idx` and `tx_status` alone, and
the TX path's leave `pos`, `rxbuf` and `res` alone. -/
def Obligations.PathsOwnDisjointState : Prop :=
  ∀ (i : Instr) (s t : State), exec i s = .next t →
    (((∃ b, i = .rxByte b) ∨ i = .rxClear ∨ i = .resTake) →
      t.blk.txbuf = s.blk.txbuf ∧ t.blk.txTotal = s.blk.txTotal ∧ t.blk.txIdx = s.blk.txIdx ∧
      t.blk.txStatus = s.blk.txStatus ∧ t.emitted = s.emitted) ∧
    (((∃ k y encLen encData, i = .encReq k y encLen encData) ∨ i = .outTake) →
      t.blk.pos = s.blk.pos ∧ t.blk.rxbuf = s.blk.rxbuf ∧ t.blk.res = s.blk.res ∧
      t.handed = s.handed)

/-- R125, R158 and R201: results appear only by a byte that finds none waiting, reach the handler
only by `RES_TAKE`, one at a time, and leave otherwise only by `RESET`. The record `handed` is the
model's (DEDUCED, notes/assumptions/7.md). -/
def Obligations.ResultsAreHandedOverOnceEach : Prop :=
  ∀ (i : Instr) (s t : State), exec i s = .next t →
    ((∃ b, i = .rxByte b) → t.handed = s.handed ∧
      (t.blk.res = s.blk.res ∨ (s.blk.res = none ∧ ∃ r, t.blk.res = some r ∧ t.blk.pos = 0))) ∧
    (i = .resTake → (∀ r, s.blk.res = some r → t.handed = s.handed ++ [r]) ∧
      (s.blk.res = none → t.handed = s.handed) ∧ t.blk.res = none) ∧
    (i = .reset → t.handed = s.handed ∧ t.blk.res = none) ∧
    ((¬ ∃ b, i = .rxByte b) → i ≠ .resTake → i ≠ .reset →
      t.handed = s.handed ∧ t.blk.res = s.blk.res)

/-- R220, R228 and R238: a transaction that does not hold adds one record to the trace, with at most
one event: codes 1 to 4 by `RX_BYTE`, code 5 by `ENC_REQ`, none by any other. -/
def Obligations.EachTransactionRecordsAtMostOneEvent : Prop :=
  ∀ (i : Instr) (s t : State), exec i s = .next t → holds s i = false →
    ∃ ev : Option Event, t.trace = s.trace ++ [⟨i, ev⟩] ∧
      ∀ e, ev = some e →
        ((∃ b, i = .rxByte b) ∧ 1 ≤ e.code ∧ e.code ≤ 4) ∨
        ((∃ k y encLen encData, i = .encReq k y encLen encData) ∧ e.code = 5)

/-- R124: from Searching, a marker, a length within `BODY_CAP`, a type byte and as many arguments as
the length says end at the last byte in the decoded result. -/
def Obligations.WholeFrameIsDecoded : Prop :=
  ∀ (s : State) (t : Byte) (args : List Byte), 4 ≤ s.cfg.maxFrame →
    s.cfg.maxFrame ≤ 65538 → s.blk.res = none → s.blk.pos = 0 → args.length ≤ s.cfg.argCap →
    ∃ u, execAll (([s.cfg.rxMarker, BitVec.ofNat 8 ((1 + args.length) % 256),
        BitVec.ofNat 8 ((1 + args.length) / 256), t] ++ args).map Instr.rxByte) s = .next u ∧
      u.blk.res = some (decodeRecord s.cfg t args) ∧ u.blk.pos = 0 ∧ u.handed = s.handed

/-- R187, the round trip: the frame a sender builds for an accepted request, taken byte by byte by a
receiver of its kind in Searching whose bounds and capacity admit it, is delivered as
`OK(t, L, a)` with the sent bytes in `a[0..L)`. The capacity premise stands beside R187's own: the
receiver's `ARG_CAP` is at least `L`. -/
def Obligations.EncodedFrameDecodesToItsRequest : Prop :=
  ∀ (s r : State) (k : FrameKind) (t : Byte) (encLen : Half) (encData : List Byte) (lo hi : Half),
    r.cfg.WellFormed → requestLength s.cfg k t encLen encData ≤ s.cfg.argCap →
    r.cfg.rxKind = k → r.blk.pos = 0 → r.blk.res = none →
    lookupLen r.cfg.lenTable t = some (lo, hi) →
    lo.toNat ≤ requestLength s.cfg k t encLen encData →
    requestLength s.cfg k t encLen encData ≤ hi.toNat →
    requestLength s.cfg k t encLen encData ≤ r.cfg.argCap →
    ∃ u a, execAll ((requestFrame s.cfg k t encLen encData).map Instr.rxByte) r = .next u ∧
      u.blk.res = some (.ok t (requestLength s.cfg k t encLen encData) a) ∧ u.blk.pos = 0 ∧
      (∀ n, n < requestLength s.cfg k t encLen encData →
        a[n]? = (encOperand s.cfg encData)[n]?) ∧
      ∀ n, requestLength s.cfg k t encLen encData ≤ n → n ≤ r.cfg.argCap → a[n]? = some 0x00#8

/-- R100, R122 and R206: chunk boundaries do not matter: feeding a joined chunk is feeding its parts
one after the other, and an empty chunk changes nothing. DESIGN CHOICE (notes/assumptions/14.md) for
the bytes `feed` leaves over. -/
def Obligations.FeedIsChunkIndependent : Prop :=
  (∀ s : State, feed [] s = .next (s, [])) ∧
  ∀ (s t : State) (xs ys : List Byte), feed xs s = .next (t, []) → feed (xs ++ ys) s = feed ys t

/-- From a state of the invariant with no result waiting, `feed` takes every byte of any chunk,
whatever the bytes are, and ends in such a state again (R100, R121, R227). -/
def Obligations.FeedTakesAnyBytes : Prop :=
  ∀ (s : State) (xs : List Byte), s.Inv → s.blk.res = none →
    ∃ t, feed xs s = .next (t, []) ∧ t.Inv ∧ t.blk.res = none

/-- R259, with the premise of conflict C6: noise without the marker leaves the block as it was and
hands nothing over. -/
def Obligations.NoiseWithoutMarkerIsDiscarded : Prop :=
  ∀ (s : State) (noise : List Byte), s.blk.res = none → s.blk.pos = 0 →
    (∀ b ∈ noise, b ≠ s.cfg.rxMarker) →
    ∃ t, feed noise s = .next (t, []) ∧ t.blk = s.blk ∧ t.handed = s.handed ∧
      t.trace = s.trace ++ noise.map (fun b => ⟨.rxByte b, none⟩)

/-- R91 and R208: a clock edge under `rst` is `RESET` alone; without `rst` each handshake transfers
exactly when its `valid` and its `ready` are both 1, `RX_CLEAR` exactly when `rx_clear` is, no
`RX_BYTE` beside `RX_CLEAR` or `RES_TAKE`, no `ENC_REQ` beside `OUT_TAKE`, and none that holds, and
the edge is its transactions one after the other. DEDUCED: a result leaves beside a clear
(notes/assumptions/11.md), and RX stands before TX (notes/assumptions/12.md). -/
def Obligations.ClockEdgeIsASequenceOfTransactions : Prop :=
  ∀ (p : Pins) (s : State), s.cfg.WellFormed →
    (p.rst = true → clockEdge p s = exec .reset s) ∧
    (p.rst = false →
      clockEdge p s = execAll (transfers p s) s ∧
      (∀ i ∈ transfers p s, holds s i = false ∧ i ≠ .reset) ∧
      (p.rxClear = true → .rxClear ∈ transfers p s ∧ ∀ b, .rxByte b ∉ transfers p s) ∧
      (∀ b, .rxByte b ∈ transfers p s → .resTake ∉ transfers p s) ∧
      ∀ k t encLen encData, .encReq k t encLen encData ∈ transfers p s →
        .outTake ∉ transfers p s) ∧
    (p.rst = false →
      (.rxClear ∈ transfers p s ↔ p.rxClear = true) ∧
      (∀ b, .rxByte b ∈ transfers p s ↔
        p.inValid = true ∧ s.blk.res = none ∧ p.rxClear = false ∧ b = p.inData) ∧
      (.resTake ∈ transfers p s ↔ p.resReady = true ∧ s.blk.res ≠ none) ∧
      (∀ k t encLen encData, .encReq k t encLen encData ∈ transfers p s ↔
        p.encValid = true ∧ s.blk.txTotal = 0 ∧ k = p.encKind ∧ t = p.encType ∧
        encLen = p.encLen ∧ encData = p.encData) ∧
      (.outTake ∈ transfers p s ↔ p.outReady = true ∧ s.blk.txTotal ≠ 0))

/-! ### The two tables (spec/10_state.md R46) and stale cells (spec/20_memory.md R75) -/

/-- R14, R46, R131 and R173: in a table without duplicates the lookup at a key answers exactly the
entry the table has for it, and `none` exactly when the table has none. -/
def Obligations.LookupsAnswerTheEntryAtTheKey : Prop :=
  (∀ (table : List LenEntry) (t : Byte), (table.map LenEntry.id).Nodup →
    (∀ lo hi, lookupLen table t = some (lo, hi) ↔ ⟨t, lo, hi⟩ ∈ table) ∧
    (lookupLen table t = none ↔ ∀ e ∈ table, e.id ≠ t)) ∧
  ∀ (table : List EncEntry) (t : Byte), (table.map EncEntry.code).Nodup →
    (∀ mode, lookupEnc table t = some mode ↔ ⟨t, mode⟩ ∈ table) ∧
    (lookupEnc table t = none ↔ ∀ e ∈ table, e.code ≠ t)

/-- R75: of two states that differ in stale cells alone, one transaction makes two states that again
differ in stale cells alone, with the same results, bytes and events; and under the invariant their
output pins agree. So no byte an earlier frame left reaches a port. -/
def Obligations.StaleCellsReachNoPort : Prop :=
  (∀ (i : Instr) (s t u : State), SameUpToStale s t → exec i s = .next u →
    ∃ v, exec i t = .next v ∧ SameUpToStale u v) ∧
  ∀ (s t : State) (clear : Bool), s.Inv → SameUpToStale s t →
    portOutputs t clear = portOutputs s clear
end

