-- ==== Sys2Proof/Laws/Bytes.lean ====
section
/-! SUPPORT. Padding, bounded string length, and the bytes of a frame. -/

namespace Sys2Proof.Machine

@[simp] theorem padTo_length (n : Nat) (xs : List Byte) : (padTo n xs).length = n := by
  induction n generalizing xs with
  | zero => rfl
  | succ n ih => cases xs <;> simp [padTo, ih]

theorem padTo_getElem? (n : Nat) (xs : List Byte) (i : Nat) :
    (padTo n xs)[i]? = if i < n then some (xs[i]?.getD 0x00#8) else none := by
  induction n generalizing xs i with
  | zero => simp [padTo]
  | succ n ih => cases xs <;> cases i <;> simp [padTo, ih]

/-- Below the list's own length, padding keeps its bytes. -/
theorem padTo_getElem?_inside {n : Nat} {xs : List Byte} {i : Nat} (hn : i < n)
    (hx : i < xs.length) : (padTo n xs)[i]? = xs[i]? := by
  rw [padTo_getElem?, if_pos hn, List.getElem?_eq_getElem hx]; rfl

/-- From the list's own length on, padding is zero. -/
theorem padTo_getElem?_beyond {n : Nat} {xs : List Byte} {i : Nat} (hn : i < n)
    (hx : xs.length ≤ i) : (padTo n xs)[i]? = some 0x00#8 := by
  rw [padTo_getElem?, if_pos hn, List.getElem?_eq_none hx]; rfl

theorem untilZero_le (xs : List Byte) : untilZero xs ≤ xs.length := by
  induction xs with
  | nil => simp [untilZero]
  | cons b bs ih => simp only [untilZero]; split <;> simp <;> omega

/-- Every byte before `untilZero` is nonzero. -/
theorem untilZero_before (xs : List Byte) (j : Nat) (h : j < untilZero xs) :
    xs[j]? ≠ some 0x00#8 := by
  induction xs generalizing j with
  | nil => simp
  | cons b bs ih =>
    simp only [untilZero] at h
    split at h
    · omega
    · cases j with
      | zero => simpa using ‹¬ b = _›
      | succ j => simpa using ih j (by omega)

/-- The byte at `untilZero`, when there is one, is zero. -/
theorem untilZero_at (xs : List Byte) (h : untilZero xs < xs.length) :
    xs[untilZero xs]? = some 0x00#8 := by
  induction xs with
  | nil => simp at h
  | cons b bs ih =>
    simp only [untilZero] at h ⊢
    split
    · simp [*]
    · rename_i hb
      rw [if_neg hb] at h
      simpa using ih (by simpa using h)

@[simp] theorem encOperand_length (cfg : Config) (d : List Byte) :
    (encOperand cfg d).length = cfg.argCap := padTo_length _ _

theorem frameBytes_length (k : FrameKind) (t : Byte) (len : Nat) (d : List Byte)
    (h : len ≤ d.length) : (frameBytes k t len d).length = 4 + len := by
  simp only [frameBytes, List.length_append, List.length_cons, List.length_nil, List.length_take]
  omega

theorem requestFrame_length {cfg : Config} {k : FrameKind} {t : Byte} {encLen : Half}
    {encData : List Byte} (h : requestLength cfg k t encLen encData ≤ cfg.argCap) :
    (requestFrame cfg k t encLen encData).length = 4 + requestLength cfg k t encLen encData :=
  frameBytes_length _ _ _ _ (by simpa using h)

/-- The two length bytes of a frame give the length back (R62, R179). -/
theorem lengthOf_bytes {d : Nat} (h : d < 65536) :
    lengthOf (BitVec.ofNat 8 (d % 256)) (BitVec.ofNat 8 (d / 256)) = d := by
  simp only [lengthOf, BitVec.toNat_ofNat]
  omega

theorem lengthOf_lt (lo hi : Byte) : lengthOf lo hi < 65536 := by
  have h1 := lo.isLt; have h2 := hi.isLt
  simp only [lengthOf]; omega

end Sys2Proof.Machine
end

