-- ==== Sys2Proof/Laws/Config.lean ====
section
/-! SUPPORT. What a well-formed configuration guarantees, and table lookups. -/

namespace Sys2Proof

/-- A well-formed configuration passes every check. -/
theorem Config.WellFormed.passes {cfg : Config} (h : cfg.WellFormed) (c : ConfigCheck) :
    cfg.passes c = true := by
  have hmem : c ∈ configChecks := by cases c <;> simp [configChecks]
  have := (List.find?_eq_none.1 h) c hmem
  simpa using this

/-- A configuration that passes every check is well formed. -/
theorem Config.wellFormed_of_passes {cfg : Config} (h : ∀ c, cfg.passes c = true) :
    cfg.WellFormed := List.find?_eq_none.2 (fun c _ => by simp [h c])

theorem Config.WellFormed.maxFrame {cfg : Config} (h : cfg.WellFormed) :
    4 ≤ cfg.maxFrame ∧ cfg.maxFrame ≤ 65538 := by
  simpa [Config.passes] using h.passes .maxFrameRange

theorem Config.WellFormed.four_le {cfg : Config} (h : cfg.WellFormed) : 4 ≤ cfg.maxFrame :=
  h.maxFrame.1

theorem noTwice_iff (bs : List Byte) : noTwice bs = true ↔ bs.Nodup := by
  induction bs with
  | nil => simp [noTwice]
  | cons b bs ih => simp [noTwice, ih]

/-- A lookup that answers finds an entry of the table. -/
theorem lookupLen_mem {es : List LenEntry} {id : Byte} {lo hi : Half}
    (h : lookupLen es id = some (lo, hi)) : ⟨id, lo, hi⟩ ∈ es := by
  induction es with
  | nil => cases h
  | cons e es ih =>
    simp only [lookupLen] at h
    split at h
    · rename_i he
      cases h
      cases he
      exact List.mem_cons_self
    · exact List.mem_cons_of_mem _ (ih h)

/-- In a table without duplicates, the lookup finds each entry. -/
theorem lookupLen_of_mem {es : List LenEntry} (hd : (es.map LenEntry.id).Nodup) {e : LenEntry}
    (h : e ∈ es) : lookupLen es e.id = some (e.min, e.max) := by
  induction es with
  | nil => cases h
  | cons d es ih =>
    simp only [List.map_cons, List.nodup_cons, List.mem_map, not_exists, not_and] at hd
    simp only [lookupLen]
    rcases List.mem_cons.1 h with rfl | h
    · simp
    · rw [if_neg (fun hid => hd.1 e h hid.symm)]
      exact ih hd.2 h

/-- A found mode is the mode of an entry. -/
theorem lookupEnc_mem {es : List EncEntry} {code : Byte} {m : EncMode}
    (h : lookupEnc es code = some m) : ⟨code, m⟩ ∈ es := by
  induction es with
  | nil => cases h
  | cons e es ih =>
    simp only [lookupEnc] at h
    split at h
    · rename_i he
      cases h
      cases he
      exact List.mem_cons_self
    · exact List.mem_cons_of_mem _ (ih h)

/-- In a table without duplicates, the lookup finds each entry. -/
theorem lookupEnc_of_mem {es : List EncEntry} (hd : (es.map EncEntry.code).Nodup) {e : EncEntry}
    (h : e ∈ es) : lookupEnc es e.code = some e.mode := by
  induction es with
  | nil => cases h
  | cons d es ih =>
    simp only [List.map_cons, List.nodup_cons, List.mem_map, not_exists, not_and] at hd
    simp only [lookupEnc]
    rcases List.mem_cons.1 h with rfl | h
    · simp
    · rw [if_neg (fun hid => hd.1 e h hid.symm)]
      exact ih hd.2 h

theorem lookupLen_none_iff {es : List LenEntry} {id : Byte} :
    lookupLen es id = none ↔ ∀ e ∈ es, e.id ≠ id := by
  induction es with
  | nil => simp [lookupLen]
  | cons e es ih =>
    simp only [lookupLen, List.forall_mem_cons]
    split <;> simp [*]

theorem lookupEnc_none_iff {es : List EncEntry} {code : Byte} :
    lookupEnc es code = none ↔ ∀ e ∈ es, e.code ≠ code := by
  induction es with
  | nil => simp [lookupEnc]
  | cons e es ih =>
    simp only [lookupEnc, List.forall_mem_cons]
    split <;> simp [*]

/-- Every mode a well-formed `ENC_TABLE` answers fits `ARG_CAP` (R171 check 3). -/
theorem Config.WellFormed.mode_fits {cfg : Config} (h : cfg.WellFormed) {code : Byte} {m : EncMode}
    (hm : lookupEnc cfg.encTable code = some m) : m.fits cfg.argCap = true := by
  have := h.passes .encModeRange
  simp only [Config.passes, List.all_eq_true] at this
  exact this _ (lookupEnc_mem hm)

end Sys2Proof
end

