-- ==== Sys2Proof/Laws/Decode.lean ====
section
/-! SUPPORT. The rows of the opcode map and the fields of a word. -/

namespace Sys2Proof

/-- Masking a word with all ones changes nothing. -/
theorem and_allOnes16 (w : Half) : w &&& 0xFFFF#16 = w := by
  apply BitVec.eq_of_toNat_eq
  rw [BitVec.toNat_and]
  show w.toNat &&& (2 ^ 16 - 1) = w.toNat
  rw [Nat.and_two_pow_sub_one_eq_mod]
  exact Nat.mod_eq_of_lt w.isLt

theorem hits_iff (r : OpRow) (w : Half) : r.hits w = true ↔ w &&& r.mask = r.bits := by
  simp [OpRow.hits]

/-- A row that fixes all sixteen bits is hit by its own word alone. -/
theorem hits_full_iff (v w : Half) : OpRow.hits ⟨v, 0xFFFF#16⟩ w = true ↔ w = v := by
  rw [hits_iff]; simp only [and_allOnes16]

/-- No two rows of the opcode map are hit by one word. -/
theorem opRows_disjoint : opRows.Pairwise (fun r q => (r.bits ^^^ q.bits) &&& (r.mask &&& q.mask) ≠ 0) := by
  decide

/-- Two rows whose fixed bits differ where both fix them are not hit by one word. -/
theorem not_hits_both {r q : OpRow} (h : (r.bits ^^^ q.bits) &&& (r.mask &&& q.mask) ≠ 0) {w : Half}
    (hr : r.hits w = true) : q.hits w = false := by
  cases hq : q.hits w with
  | false => rfl
  | true =>
    exfalso
    apply h
    rw [← (hits_iff r w).1 hr, ← (hits_iff q w).1 hq]
    apply BitVec.eq_of_getLsbD_eq
    intro n _
    have hz : (0 : Half).getLsbD n = false := BitVec.getLsbD_zero
    rw [hz]
    simp only [BitVec.getLsbD_and, BitVec.getLsbD_xor]
    cases w.getLsbD n <;> cases r.mask.getLsbD n <;> cases q.mask.getLsbD n <;> rfl

/-- The byte field, widened, is the word's low byte in place. -/
theorem bField_setWidth (w : Half) : (bField w).setWidth 16 = w &&& 0x00FF#16 := by
  apply BitVec.eq_of_toNat_eq
  simp only [bField, BitVec.toNat_setWidth, BitVec.extractLsb'_toNat, BitVec.toNat_and]
  show _ = w.toNat &&& (2 ^ 8 - 1)
  rw [Nat.and_two_pow_sub_one_eq_mod]
  simp only [Nat.shiftRight_zero]
  omega

/-- The kind field, read and put back, is the word's bit 8 in place. -/
theorem kindBits_kField (w : Half) : kindBits (kindOfBit (kField w)) = w &&& 0x0100#16 := by
  have h8 : kField w = BitVec.ofBool (w.getLsbD 8) := by
    apply BitVec.eq_of_getLsbD_eq
    intro n hn
    obtain rfl : n = 0 := by omega
    simp [kField]
  have hw : w &&& 0x0100#16 = if w.getLsbD 8 then 0x0100#16 else 0 := BitVec.and_twoPow w 8
  rw [hw, h8]
  cases w.getLsbD 8 <;> rfl

/-- Two masks that cover all bits split a word. -/
theorem and_or_and {m n : Half} (h : m ||| n = 0xFFFF#16) (w : Half) :
    (w &&& m) ||| (w &&& n) = w := by
  rw [← BitVec.and_or_distrib_left, h, and_allOnes16]

/-- What the decoder can answer: the transaction of a row the word hits. -/
theorem decode_ok {x : Tx} {i : Instr} (h : decode x = .ok i) :
    (rowRxByte.hits x.word = true ∧ i = .rxByte (bField x.word)) ∨
    (rowRxClear.hits x.word = true ∧ i = .rxClear) ∨
    (rowResTake.hits x.word = true ∧ i = .resTake) ∨
    (rowEncReq.hits x.word = true ∧
      i = .encReq (kindOfBit (kField x.word)) (bField x.word) x.encLen x.encData) ∨
    (rowOutTake.hits x.word = true ∧ i = .outTake) ∨
    (rowReset.hits x.word = true ∧ i = .reset) := by
  unfold decode at h
  repeat' split at h
  all_goals cases h
  all_goals simp only [*, and_true, true_or, or_true]

end Sys2Proof
end

