-- ==== Sys2Proof/Laws/Memory.lean ====
section
/-! SUPPORT. The buffers: a read after a write, the canonical form, and what a row of reads or writes
answers. -/

namespace Sys2Proof.Machine

theorem memRead_memWrite (m : Memory) (i j : Nat) (v : Byte) :
    memRead (memWrite m i v) j = if j = i then some v else memRead m j := by
  induction m with
  | nil => simp [memWrite, memRead, eq_comm]
  | cons c m ih =>
    obtain ⟨a, w⟩ := c
    simp only [memWrite]
    split
    · simp [memRead, eq_comm]
    · split
      · rename_i h; subst h; simp only [memRead]
        by_cases hj : i = j <;> simp [hj, eq_comm]
      · simp only [memRead, ih]
        by_cases ha : a = j
        · subst ha; simp [Ne.symm ‹¬ i = a›]
        · simp [ha]

@[simp] theorem memRead_memWrite_self (m : Memory) (i : Nat) (v : Byte) :
    memRead (memWrite m i v) i = some v := by simp [memRead_memWrite]

theorem memRead_memWrite_ne (m : Memory) {i j : Nat} (v : Byte) (h : j ≠ i) :
    memRead (memWrite m i v) j = memRead m j := by simp [memRead_memWrite, h]

theorem mem_memWrite {m : Memory} {i : Nat} {v : Byte} {c : Host.Cell}
    (h : c ∈ memWrite m i v) : c = (i, v) ∨ c ∈ m := by
  induction m with
  | nil => simpa [memWrite] using h
  | cons d m ih =>
    obtain ⟨a, w⟩ := d
    simp only [memWrite] at h
    split at h
    · simpa using h
    · split at h
      · rcases List.mem_cons.1 h with h | h
        · exact .inl h
        · exact .inr (List.mem_cons_of_mem _ h)
      · rcases List.mem_cons.1 h with h | h
        · exact .inr (h ▸ List.mem_cons_self)
        · exact (ih h).imp id (List.mem_cons_of_mem _)

/-- A write keeps the canonical form. -/
theorem memWrite_wf {m : Memory} (i : Nat) (v : Byte) (h : m.wf) :
    Memory.wf (memWrite m i v) := by
  induction m with
  | nil => simp [memWrite]
  | cons d m ih =>
    obtain ⟨a, w⟩ := d
    obtain ⟨hd, hm⟩ := List.pairwise_cons.1 h
    simp only [memWrite]
    split
    · rename_i hi
      refine List.pairwise_cons.2 ⟨fun c hc => ?_, h⟩
      rcases List.mem_cons.1 hc with rfl | hc
      · exact hi
      · exact Nat.lt_trans hi (hd c hc)
    · split
      · rename_i _ hi; subst hi
        exact List.pairwise_cons.2 ⟨hd, hm⟩
      · refine List.pairwise_cons.2 ⟨fun c hc => ?_, ih hm⟩
        rcases mem_memWrite hc with rfl | hc
        · show a < i; omega
        · exact hd c hc

/-- The buffers after reset are in canonical form: nothing is written. -/
theorem reset_buffers_wf (cfg : Config) :
    (State.resetFor cfg).blk.rxbuf.wf ∧ (State.resetFor cfg).blk.txbuf.wf :=
  ⟨List.Pairwise.nil, List.Pairwise.nil⟩

theorem bufRead_ok_iff {buf : Buf} {m : Memory} {i : Nat} {v : Byte} :
    bufRead buf m i = .ok v ↔ memRead m i = some v := by
  unfold bufRead; split <;> simp_all

theorem bufRead_of_memRead {buf : Buf} {m : Memory} {i : Nat} {v : Byte}
    (h : memRead m i = some v) : bufRead buf m i = .ok v := bufRead_ok_iff.2 h

theorem bufWrite_ok {cfg : Config} {buf : Buf} {m : Memory} {i : Nat} {v : Byte}
    (h : i < cfg.maxFrame) : bufWrite cfg buf m i v = .ok (memWrite m i v) := by
  simp [bufWrite, h]

theorem bufWrite_ok_iff {cfg : Config} {buf : Buf} {m m' : Memory} {i : Nat} {v : Byte} :
    bufWrite cfg buf m i v = .ok m' ↔ i < cfg.maxFrame ∧ m' = memWrite m i v := by
  unfold bufWrite
  split
  · rename_i h
    exact ⟨fun e => ⟨h, (Except.ok.inj e).symm⟩, fun e => congrArg _ e.2.symm⟩
  · rename_i h
    exact ⟨fun e => (nomatch e), fun e => absurd e.1 h⟩

/-- A row of reads answers the bytes at its cells, and only if every cell is written. -/
theorem bufReadList_ok_iff {buf : Buf} {m : Memory} {start count : Nat} {vs : List Byte} :
    bufReadList buf m start count = .ok vs ↔
      vs.length = count ∧ ∀ i, i < count → memRead m (start + i) = vs[i]? := by
  induction count generalizing start vs with
  | zero => cases vs <;> simp [bufReadList]
  | succ n ih =>
    unfold bufReadList
    constructor
    · intro h
      split at h
      · cases h
      · rename_i v hv
        split at h
        · cases h
        · rename_i ws hws
          cases h
          obtain ⟨hl, hr⟩ := ih.1 hws
          refine ⟨by simp [hl], fun i hi => ?_⟩
          cases i with
          | zero => simpa using bufRead_ok_iff.1 hv
          | succ i =>
            have := hr i (by omega)
            rw [show start + (i + 1) = start + 1 + i by omega, this]
            simp
    · rintro ⟨hl, hr⟩
      cases vs with
      | nil => simp at hl
      | cons v ws =>
        have h0 : memRead m start = some v := by simpa using hr 0 (by omega)
        rw [bufRead_of_memRead h0]
        have hws : bufReadList buf m (start + 1) n = .ok ws := by
          refine ih.2 ⟨by simpa using hl, fun i hi => ?_⟩
          have := hr (i + 1) (by omega)
          rw [show start + 1 + i = start + (i + 1) by omega, this]
          simp
        simp [hws]

/-- A row of reads over written cells answers. -/
theorem bufReadList_total {buf : Buf} {m : Memory} {start count : Nat}
    (h : ∀ i, i < count → (memRead m (start + i)).isSome) :
    ∃ vs, bufReadList buf m start count = .ok vs := by
  induction count generalizing start with
  | zero => exact ⟨[], rfl⟩
  | succ n ih =>
    obtain ⟨v, hv⟩ := Option.isSome_iff_exists.1 (h 0 (by omega))
    obtain ⟨vs, hvs⟩ := ih (start := start + 1) (fun i hi => by
      have := h (i + 1) (by omega)
      rwa [show start + (i + 1) = start + 1 + i by omega] at this)
    refine ⟨v :: vs, ?_⟩
    unfold bufReadList
    rw [bufRead_of_memRead (by simpa using hv)]
    simp [hvs]

/-- A row of writes inside the buffer answers a buffer that holds the bytes at its cells, is
unchanged elsewhere, keeps the canonical form and lists no cell outside the buffer. -/
theorem bufWriteList_ok {cfg : Config} {buf : Buf} {m : Memory} {start : Nat} {vs : List Byte}
    (h : start + vs.length ≤ cfg.maxFrame) :
    ∃ m', bufWriteList cfg buf m start vs = .ok m' ∧
      (∀ i, i < vs.length → memRead m' (start + i) = vs[i]?) ∧
      (∀ j, j < start ∨ start + vs.length ≤ j → memRead m' j = memRead m j) ∧
      (m.wf → m'.wf) ∧
      ((∀ c ∈ m, c.1 < cfg.maxFrame) → ∀ c ∈ m', c.1 < cfg.maxFrame) := by
  induction vs generalizing m start with
  | nil => exact ⟨m, rfl, by simp, by simp, id, id⟩
  | cons v vs ih =>
    simp only [List.length_cons] at h
    obtain ⟨m', he, hr, hf, hw, hb⟩ := ih (m := memWrite m start v) (start := start + 1) (by omega)
    refine ⟨m', ?_, fun i hi => ?_, fun j hj => ?_, fun hm => hw (memWrite_wf _ _ hm), fun hm => ?_⟩
    · unfold bufWriteList
      rw [bufWrite_ok (by omega)]
      exact he
    · cases i with
      | zero => rw [hf _ (by omega)]; simp
      | succ i =>
        have := hr i (by simpa using hi)
        rw [show start + (i + 1) = start + 1 + i by omega, this]
        simp
    · simp only [List.length_cons] at hj
      rw [hf j (by omega), memRead_memWrite_ne _ _ (by omega)]
    · refine hb (fun c hc => ?_)
      rcases mem_memWrite hc with rfl | hc
      · show start < cfg.maxFrame; omega
      · exact hm c hc

/-- A row of writes that answers keeps the canonical form. -/
theorem bufWriteList_wf {cfg : Config} {buf : Buf} {m m' : Memory} {start : Nat} {vs : List Byte}
    (he : bufWriteList cfg buf m start vs = .ok m') (h : m.wf) : m'.wf := by
  induction vs generalizing m start with
  | nil => cases he; exact h
  | cons v vs ih =>
    unfold bufWriteList at he
    split at he
    · cases he
    · rename_i m1 hm1
      rw [(bufWrite_ok_iff.1 hm1).2] at he
      exact ih he (memWrite_wf _ _ h)

/-- A row of writes that answers, of one byte or more, lies inside the buffer. -/
theorem bufWriteList_fits {cfg : Config} {buf : Buf} {m m' : Memory} {start : Nat} {vs : List Byte}
    (he : bufWriteList cfg buf m start vs = .ok m') (hne : vs ≠ []) :
    start + vs.length ≤ cfg.maxFrame := by
  induction vs generalizing m start with
  | nil => exact absurd rfl hne
  | cons v vs ih =>
    unfold bufWriteList at he
    split at he
    · cases he
    · rename_i m1 hm1
      have hlt := (bufWrite_ok_iff.1 hm1).1
      cases vs with
      | nil => exact hlt
      | cons w ws =>
        have := ih he (List.cons_ne_nil _ _)
        simp only [List.length_cons] at this ⊢
        omega

/-- A row of writes that answers leaves every cell outside the row alone. -/
theorem bufWriteList_outside {cfg : Config} {buf : Buf} {m m' : Memory} {start : Nat}
    {vs : List Byte} (he : bufWriteList cfg buf m start vs = .ok m') {j : Nat}
    (hj : j < start ∨ start + vs.length ≤ j) : memRead m' j = memRead m j := by
  induction vs generalizing m start with
  | nil => cases he; rfl
  | cons v vs ih =>
    unfold bufWriteList at he
    split at he
    · cases he
    · rename_i m1 hm1
      simp only [List.length_cons] at hj
      rw [ih he (by omega), (bufWrite_ok_iff.1 hm1).2, memRead_memWrite_ne _ _ (by omega)]

end Sys2Proof.Machine
end

