-- ==== Sys2Proof/Laws/State.lean ====
section
/-! SUPPORT. One lemma per field per update of `State`, so that no proof unfolds a record update. -/

namespace Sys2Proof.Machine

section
variable (s : State) (i : Instr) (ev : Option Event) (b : Block) (r : Result) (v : Byte)
  (last : Bool) (ts : List Tx)

@[simp] theorem State.finish_cfg : (s.finish i ev b).cfg = s.cfg := rfl
@[simp] theorem State.finish_blk : (s.finish i ev b).blk = b := rfl
@[simp] theorem State.finish_pending : (s.finish i ev b).pending = s.pending := rfl
@[simp] theorem State.finish_handed : (s.finish i ev b).handed = s.handed := rfl
@[simp] theorem State.finish_emitted : (s.finish i ev b).emitted = s.emitted := rfl
@[simp] theorem State.finish_trace : (s.finish i ev b).trace = s.trace ++ [⟨i, ev⟩] := rfl

@[simp] theorem State.hand_cfg : (s.hand r).cfg = s.cfg := rfl
@[simp] theorem State.hand_blk : (s.hand r).blk = s.blk := rfl
@[simp] theorem State.hand_pending : (s.hand r).pending = s.pending := rfl
@[simp] theorem State.hand_handed : (s.hand r).handed = s.handed ++ [r] := rfl
@[simp] theorem State.hand_emitted : (s.hand r).emitted = s.emitted := rfl
@[simp] theorem State.hand_trace : (s.hand r).trace = s.trace := rfl

@[simp] theorem State.emit_cfg : (s.emit v last).cfg = s.cfg := rfl
@[simp] theorem State.emit_blk : (s.emit v last).blk = s.blk := rfl
@[simp] theorem State.emit_pending : (s.emit v last).pending = s.pending := rfl
@[simp] theorem State.emit_handed : (s.emit v last).handed = s.handed := rfl
@[simp] theorem State.emit_emitted : (s.emit v last).emitted = s.emitted ++ [(v, last)] := rfl
@[simp] theorem State.emit_trace : (s.emit v last).trace = s.trace := rfl

@[simp] theorem State.withPending_cfg : (s.withPending ts).cfg = s.cfg := rfl
@[simp] theorem State.withPending_blk : (s.withPending ts).blk = s.blk := rfl
@[simp] theorem State.withPending_pending : (s.withPending ts).pending = ts := rfl
@[simp] theorem State.withPending_handed : (s.withPending ts).handed = s.handed := rfl
@[simp] theorem State.withPending_emitted : (s.withPending ts).emitted = s.emitted := rfl
@[simp] theorem State.withPending_trace : (s.withPending ts).trace = s.trace := rfl

@[simp] theorem State.resetFor_cfg (cfg : Config) : (State.resetFor cfg).cfg = cfg := rfl
@[simp] theorem State.resetFor_blk (cfg : Config) : (State.resetFor cfg).blk = Block.reset := rfl
@[simp] theorem State.resetFor_pending (cfg : Config) : (State.resetFor cfg).pending = [] := rfl
@[simp] theorem State.resetFor_handed (cfg : Config) : (State.resetFor cfg).handed = [] := rfl
@[simp] theorem State.resetFor_emitted (cfg : Config) : (State.resetFor cfg).emitted = [] := rfl
@[simp] theorem State.resetFor_trace (cfg : Config) : (State.resetFor cfg).trace = [] := rfl
end

end Sys2Proof.Machine
end

