-- ==== Sys2Proof/Laws/Meanings.lean ====
section
/-! SUPPORT. What each meaning can answer, said once: an inversion lemma per shared operation and
per transaction. -/

namespace Sys2Proof.Machine

@[simp] theorem hold_eq (s : State) : hold s = .next s := rfl

theorem resValid_iff (b : Block) : b.resValid = true ↔ b.res.isSome = true := Iff.rfl

@[simp] theorem resValid_eq_false_iff (b : Block) : b.resValid = false ↔ b.res = none := by
  simp [Block.resValid]

@[simp] theorem txBusy_iff (b : Block) : b.txBusy = true ↔ b.txTotal ≠ 0 := by
  simp [Block.txBusy]

@[simp] theorem txBusy_eq_false_iff (b : Block) : b.txBusy = false ↔ b.txTotal = 0 := by
  simp [Block.txBusy]

@[simp] theorem outValid_eq_txBusy (b : Block) : b.outValid = b.txBusy := rfl

theorem settle_next_iff {s t : State} {i : Instr} {o : Except Fault (Block × Option Event)} :
    settle s i o = .next t ↔ ∃ b ev, o = .ok (b, ev) ∧ t = s.finish i ev b := by
  cases o with
  | error f => simp [settle]
  | ok p =>
    obtain ⟨b, ev⟩ := p
    constructor
    · intro h
      exact ⟨b, ev, rfl, (Host.Outcome.next.inj h).symm⟩
    · rintro ⟨b', ev', h, rfl⟩
      cases h
      rfl

theorem settle_fault_iff {s : State} {i : Instr} {o : Except Fault (Block × Option Event)}
    {f : Fault} : settle s i o = .fault f ↔ o = .error f := by
  cases o <;> simp [settle]

theorem storeRx_ok_iff {cfg : Config} {b : Byte} {n : Nat} {blk blk' : Block} :
    storeRx cfg b n blk = .ok blk' ↔
      blk.pos < cfg.maxFrame ∧
        blk' = { blk with rxbuf := memWrite blk.rxbuf blk.pos b, pos := n } := by
  unfold storeRx bufWrite
  by_cases h : blk.pos < cfg.maxFrame <;> simp [h, eq_comm]

theorem storeRx_ok {cfg : Config} {b : Byte} {n : Nat} {blk : Block} (h : blk.pos < cfg.maxFrame) :
    storeRx cfg b n blk = .ok { blk with rxbuf := memWrite blk.rxbuf blk.pos b, pos := n } :=
  storeRx_ok_iff.2 ⟨h, rfl⟩

theorem quietly_ok_iff {o : Except Fault Block} {blk : Block} {ev : Option Event} :
    quietly o = .ok (blk, ev) ↔ o = .ok blk ∧ ev = none := by
  cases o <;> simp [quietly, eq_comm]

/-- Everything an accepted byte can do: one constructor per rule R112 to R119. -/
inductive RxCase (cfg : Config) (b : Byte) (blk : Block) : Block → Option Event → Prop where
  | noise (hp : blk.pos = 0) (hb : b ≠ cfg.rxMarker) : RxCase cfg b blk blk none
  | marker (hp : blk.pos = 0) (hb : b = cfg.rxMarker) (hm : 0 < cfg.maxFrame) :
      RxCase cfg b blk { blk with rxbuf := memWrite blk.rxbuf 0 b, pos := 1 } none
  | lowLength (hp : blk.pos = 1) (hm : 1 < cfg.maxFrame) :
      RxCase cfg b blk { blk with rxbuf := memWrite blk.rxbuf 1 b, pos := 2 } none
  | overflow (lo : Byte) (hp : blk.pos = 2) (hm : 2 < cfg.maxFrame)
      (hl : memRead blk.rxbuf 1 = some lo) (ht : cfg.maxFrame < totalOf lo b) :
      RxCase cfg b blk { blk with rxbuf := memWrite blk.rxbuf 2 b, pos := 0 }
        (some (.frameOverflow (lengthOf lo b)))
  | empty (lo : Byte) (hp : blk.pos = 2) (hm : 2 < cfg.maxFrame)
      (hl : memRead blk.rxbuf 1 = some lo) (ht : totalOf lo b ≤ cfg.maxFrame)
      (hz : lengthOf lo b = 0) :
      RxCase cfg b blk { blk with rxbuf := memWrite blk.rxbuf 2 b, pos := 0 } (some .frameEmpty)
  | highLength (lo : Byte) (hp : blk.pos = 2) (hm : 2 < cfg.maxFrame)
      (hl : memRead blk.rxbuf 1 = some lo) (ht : totalOf lo b ≤ cfg.maxFrame)
      (hz : lengthOf lo b ≠ 0) :
      RxCase cfg b blk { blk with rxbuf := memWrite blk.rxbuf 2 b, pos := 3 } none
  | inside (lo hi : Byte) (hp : 3 ≤ blk.pos) (hm : blk.pos < cfg.maxFrame)
      (hl : memRead blk.rxbuf 1 = some lo) (hh : memRead blk.rxbuf 2 = some hi)
      (ht : blk.pos + 1 < totalOf lo hi) :
      RxCase cfg b blk
        { blk with rxbuf := memWrite blk.rxbuf blk.pos b, pos := blk.pos + 1 } none
  | last (lo hi t : Byte) (args : List Byte) (hp : 3 ≤ blk.pos) (hm : blk.pos < cfg.maxFrame)
      (hl : memRead blk.rxbuf 1 = some lo) (hh : memRead blk.rxbuf 2 = some hi)
      (ht : blk.pos + 1 = totalOf lo hi)
      (htype : memRead (memWrite blk.rxbuf blk.pos b) 3 = some t)
      (hlen : args.length = totalOf lo hi - 4)
      (hargs : ∀ i, i < args.length →
        memRead (memWrite blk.rxbuf blk.pos b) (4 + i) = args[i]?) :
      RxCase cfg b blk
        { blk with
          rxbuf := memWrite blk.rxbuf blk.pos b, res := some (decodeRecord cfg t args), pos := 0 }
        (decodeRecord cfg t args).event

theorem rxSearching_ok_iff {cfg : Config} {b : Byte} {blk blk' : Block} {ev : Option Event}
    (hp : blk.pos = 0) :
    rxSearching cfg b blk = .ok (blk', ev) ↔ RxCase cfg b blk blk' ev := by
  unfold rxSearching
  constructor
  · intro h
    split at h
    · rename_i hb
      obtain ⟨hs, rfl⟩ := quietly_ok_iff.1 h
      obtain ⟨hm, rfl⟩ := storeRx_ok_iff.1 hs
      rw [hp] at hm
      simpa [hp] using RxCase.marker (blk := blk) hp hb hm
    · rename_i hb
      cases h
      exact .noise hp hb
  · intro h
    cases h with
    | noise _ hb => rw [if_neg hb]
    | marker _ hb hm =>
      rw [if_pos hb]
      exact quietly_ok_iff.2 ⟨storeRx_ok_iff.2 ⟨by omega, by rw [hp]⟩, rfl⟩
    | lowLength h | overflow _ h | empty _ h | highLength _ h => omega
    | inside _ _ h | last _ _ _ _ h => omega

theorem rxLowLength_ok_iff {cfg : Config} {b : Byte} {blk blk' : Block} {ev : Option Event}
    (hp : blk.pos = 1) :
    quietly (storeRx cfg b 2 blk) = .ok (blk', ev) ↔ RxCase cfg b blk blk' ev := by
  rw [quietly_ok_iff, storeRx_ok_iff]
  constructor
  · rintro ⟨⟨hm, rfl⟩, rfl⟩
    rw [hp] at hm
    simpa [hp] using RxCase.lowLength (b := b) (blk := blk) hp hm
  · intro h
    cases h with
    | lowLength _ hm => exact ⟨⟨by omega, by rw [hp]⟩, rfl⟩
    | noise h | marker h | overflow _ h | empty _ h | highLength _ h => omega
    | inside _ _ h | last _ _ _ _ h => omega

theorem rxHighLength_ok_iff {cfg : Config} {b : Byte} {blk blk' : Block} {ev : Option Event}
    (hp : blk.pos = 2) :
    rxHighLength cfg b blk = .ok (blk', ev) ↔ RxCase cfg b blk blk' ev := by
  unfold rxHighLength
  constructor
  · intro h
    split at h
    · cases h
    · rename_i stored hs
      obtain ⟨hm, rfl⟩ := storeRx_ok_iff.1 hs
      rw [hp] at hm
      split at h
      · cases h
      · rename_i lo hlo
        have hl : memRead blk.rxbuf 1 = some lo := by
          simpa [hp, memRead_memWrite] using bufRead_ok_iff.1 hlo
        split at h
        · cases h
          rw [hp]; exact .overflow lo hp hm hl ‹_›
        · split at h
          · cases h
            rw [hp]; exact .empty lo hp hm hl (by omega) ‹_›
          · cases h
            rw [hp]; exact .highLength lo hp hm hl (by omega) ‹_›
  · intro h
    have key : ∀ lo, 2 < cfg.maxFrame → memRead blk.rxbuf 1 = some lo →
        storeRx cfg b 3 blk = .ok { blk with rxbuf := memWrite blk.rxbuf 2 b, pos := 3 } ∧
        bufRead .rx (memWrite blk.rxbuf 2 b) 1 = .ok lo := by
      intro lo hm hl
      refine ⟨by rw [storeRx_ok (by omega), hp], bufRead_of_memRead ?_⟩
      rw [memRead_memWrite_ne _ _ (by decide), hl]
    cases h with
    | overflow lo _ hm hl ht =>
      obtain ⟨h1, h2⟩ := key lo hm hl
      simp only [h1, h2, if_pos ht]
    | empty lo _ hm hl ht hz =>
      obtain ⟨h1, h2⟩ := key lo hm hl
      simp only [h1, h2, if_neg (Nat.not_lt.2 ht), if_pos hz]
    | highLength lo _ hm hl ht hz =>
      obtain ⟨h1, h2⟩ := key lo hm hl
      simp only [h1, h2, if_neg (Nat.not_lt.2 ht), if_neg hz]
    | noise h | marker h | lowLength h => omega
    | inside _ _ h | last _ _ _ _ h => omega

theorem rxComplete_ok_iff {cfg : Config} {b : Byte} {total : Nat} {blk blk' : Block}
    {ev : Option Event} :
    rxComplete cfg b total blk = .ok (blk', ev) ↔
      ∃ t args, blk.pos < cfg.maxFrame ∧
        memRead (memWrite blk.rxbuf blk.pos b) 3 = some t ∧
        args.length = total - 4 ∧
        (∀ i, i < args.length → memRead (memWrite blk.rxbuf blk.pos b) (4 + i) = args[i]?) ∧
        blk' = { blk with
          rxbuf := memWrite blk.rxbuf blk.pos b, res := some (decodeRecord cfg t args), pos := 0 } ∧
        ev = (decodeRecord cfg t args).event := by
  unfold rxComplete
  constructor
  · intro h
    split at h
    · cases h
    · rename_i stored hs
      obtain ⟨hm, rfl⟩ := storeRx_ok_iff.1 hs
      split at h
      · cases h
      · rename_i t ht
        split at h
        · cases h
        · rename_i args hargs
          obtain ⟨hl, hr⟩ := bufReadList_ok_iff.1 hargs
          cases h
          exact ⟨t, args, hm, bufRead_ok_iff.1 ht, hl, fun i hi => hr i (hl ▸ hi), rfl, rfl⟩
  · rintro ⟨t, args, hm, ht, hl, hr, rfl, rfl⟩
    have h1 : bufReadList .rx (memWrite blk.rxbuf blk.pos b) 4 (total - 4) = .ok args :=
      bufReadList_ok_iff.2 ⟨hl, fun i hi => hr i (hl ▸ hi)⟩
    simp only [storeRx_ok hm, bufRead_of_memRead ht, h1, deliver]

theorem rxPayload_ok_iff {cfg : Config} {b : Byte} {blk blk' : Block} {ev : Option Event}
    (hp : 3 ≤ blk.pos) :
    rxPayload cfg b blk = .ok (blk', ev) ↔ RxCase cfg b blk blk' ev := by
  unfold rxPayload
  constructor
  · intro h
    split at h
    · cases h
    · rename_i lo hlo
      split at h
      · cases h
      · rename_i hi hhi
        have hl := bufRead_ok_iff.1 hlo
        have hh := bufRead_ok_iff.1 hhi
        split at h
        · obtain ⟨hs, rfl⟩ := quietly_ok_iff.1 h
          obtain ⟨hm, rfl⟩ := storeRx_ok_iff.1 hs
          exact .inside lo hi hp hm hl hh ‹_›
        · split at h
          · obtain ⟨t, args, hm, ht, hlen, hargs, rfl, rfl⟩ := rxComplete_ok_iff.1 h
            exact .last lo hi t args hp hm hl hh ‹_› ht hlen hargs
          · cases h
  · intro h
    cases h with
    | inside lo hi _ hm hl hh ht =>
      simp only [bufRead_of_memRead hl, bufRead_of_memRead hh, if_pos ht]
      exact quietly_ok_iff.2 ⟨storeRx_ok hm, rfl⟩
    | last lo hi t args _ hm hl hh ht htype hlen hargs =>
      simp only [bufRead_of_memRead hl, bufRead_of_memRead hh]
      rw [if_neg (by omega), if_pos ht]
      exact rxComplete_ok_iff.2 ⟨t, args, hm, htype, hlen, hargs, rfl, rfl⟩
    | noise h | marker h | lowLength h | overflow _ h | empty _ h | highLength _ h => omega

/-- What an accepted byte answers: exactly the cases of R112 to R119. -/
theorem rxAccept_ok_iff {cfg : Config} {b : Byte} {blk blk' : Block} {ev : Option Event} :
    rxAccept cfg b blk = .ok (blk', ev) ↔ RxCase cfg b blk blk' ev := by
  unfold rxAccept
  split
  · exact rxSearching_ok_iff ‹_›
  · split
    · exact rxLowLength_ok_iff ‹_›
    · split
      · exact rxHighLength_ok_iff ‹_›
      · exact rxPayload_ok_iff (by omega)

/-- `RX_BYTE`: a hold, or one of the cases. -/
theorem execRxByte_next_iff {b : Byte} {s t : State} :
    execRxByte b s = .next t ↔
      (s.blk.resValid = true ∧ t = s) ∨
      (s.blk.res = none ∧ ∃ blk ev, RxCase s.cfg b s.blk blk ev ∧ t = s.finish (.rxByte b) ev blk) := by
  unfold execRxByte
  cases h : s.blk.resValid with
  | true =>
    have hr : s.blk.res ≠ none := by
      intro hn
      simp [Block.resValid, hn] at h
    simp [hr, eq_comm]
  | false =>
    simp [settle_next_iff, rxAccept_ok_iff, (resValid_eq_false_iff _).1 h]

/-- An accepted byte whose case is known: the meaning answers that case. -/
theorem execRxByte_of_case {s : State} {b : Byte} {blk : Block} {ev : Option Event}
    (hr : s.blk.res = none) (h : RxCase s.cfg b s.blk blk ev) :
    execRxByte b s = .next (s.finish (.rxByte b) ev blk) :=
  execRxByte_next_iff.2 (.inr ⟨hr, blk, ev, h, rfl⟩)

/-- No case of an accepted byte touches the TX path (R16). -/
theorem RxCase.keeps_tx {cfg : Config} {b : Byte} {blk blk' : Block} {ev : Option Event}
    (h : RxCase cfg b blk blk' ev) :
    blk'.txbuf = blk.txbuf ∧ blk'.txTotal = blk.txTotal ∧ blk'.txIdx = blk.txIdx ∧
      blk'.txStatus = blk.txStatus := by
  cases h <;> exact ⟨rfl, rfl, rfl, rfl⟩

/-- Everything an accepted `ENC_REQ` can do (R170): too long (R178), or the frame (R180, R181). -/
theorem encAccept_ok_iff {cfg : Config} {k : FrameKind} {t : Byte} {encLen : Half}
    {encData : List Byte} {blk blk' : Block} {ev : Option Event} :
    encAccept cfg k t encLen encData blk = .ok (blk', ev) ↔
      (cfg.argCap < requestLength cfg k t encLen encData ∧
        blk' = { blk with txStatus := .tooLong } ∧
        ev = some (.encTooLong (requestLength cfg k t encLen encData))) ∨
      (requestLength cfg k t encLen encData ≤ cfg.argCap ∧ ev = none ∧
        ∃ m, bufWriteList cfg .tx blk.txbuf 0 (requestFrame cfg k t encLen encData) = .ok m ∧
          blk' = { blk with
            txbuf := m, txTotal := 4 + requestLength cfg k t encLen encData,
            txIdx := 0, txStatus := .ok }) := by
  unfold encAccept
  by_cases h : cfg.argCap < requestLength cfg k t encLen encData
  · simp [h, Nat.not_le.2 h, eq_comm]
  · cases hw : bufWriteList cfg .tx blk.txbuf 0 (requestFrame cfg k t encLen encData) with
    | error f => simp [h]
    | ok m => simp [h, Nat.not_lt.1 h, eq_comm, and_comm]

/-- An accepted request does not touch the RX path (R16). -/
theorem encAccept_keeps_rx {cfg : Config} {k : FrameKind} {t : Byte} {encLen : Half}
    {encData : List Byte} {blk blk' : Block} {ev : Option Event}
    (h : encAccept cfg k t encLen encData blk = .ok (blk', ev)) :
    blk'.pos = blk.pos ∧ blk'.rxbuf = blk.rxbuf ∧ blk'.res = blk.res := by
  rcases encAccept_ok_iff.1 h with ⟨_, rfl, _⟩ | ⟨_, _, m, _, rfl⟩ <;> exact ⟨rfl, rfl, rfl⟩

/-- `ENC_REQ`: a hold, or an accepted request. -/
theorem execEncReq_next_iff {k : FrameKind} {t : Byte} {encLen : Half} {encData : List Byte}
    {s u : State} :
    execEncReq k t encLen encData s = .next u ↔
      encData.length ≤ s.cfg.argCap ∧
        ((s.blk.txTotal ≠ 0 ∧ u = s) ∨
         (s.blk.txTotal = 0 ∧ ∃ blk ev,
            encAccept s.cfg k t encLen encData s.blk = .ok (blk, ev) ∧
            u = s.finish (.encReq k t encLen encData) ev blk)) := by
  unfold execEncReq
  by_cases hd : encData.length ≤ s.cfg.argCap
  · cases h : s.blk.txBusy with
    | true =>
      have := (txBusy_iff _).1 h
      simp [Instr.wf, hd, this, eq_comm]
    | false =>
      have := (txBusy_eq_false_iff _).1 h
      simp [Instr.wf, hd, this, settle_next_iff]
  · simp [Instr.wf, hd]

/-- `OUT_TAKE`: a hold, or one byte taken (R185). -/
theorem execOutTake_next_iff {s u : State} :
    execOutTake s = .next u ↔
      (s.blk.txTotal = 0 ∧ u = s) ∨
      (∃ v, s.blk.txIdx < s.blk.txTotal ∧ memRead s.blk.txbuf s.blk.txIdx = some v ∧
        u = (s.emit v s.blk.outLast).finish .outTake none (outAdvance s.blk)) := by
  unfold execOutTake
  cases h : s.blk.txBusy with
  | false =>
    have h0 := (txBusy_eq_false_iff _).1 h
    simp [h, h0, eq_comm]
  | true =>
    have h0 := (txBusy_iff _).1 h
    by_cases hi : s.blk.txIdx < s.blk.txTotal
    · cases hr : memRead s.blk.txbuf s.blk.txIdx with
      | none => simp [h, h0, outByte, hi, bufRead, hr]
      | some v => simp [h, h0, outByte, hi, bufRead, hr, eq_comm]
    · simp [h, h0, outByte, hi]

/-- `RES_TAKE`: a hold, or the result handed over (R200). -/
theorem execResTake_next_iff {s u : State} :
    execResTake s = .next u ↔
      (s.blk.res = none ∧ u = s) ∨
      (∃ r, s.blk.res = some r ∧
        u = (s.hand r).finish .resTake none { s.blk with res := none }) := by
  unfold execResTake
  cases h : s.blk.res <;> simp [eq_comm]

theorem andThen_next_iff {o : Outcome} {f : State → Outcome} {t : State} :
    andThen o f = .next t ↔ ∃ s, o = .next s ∧ f s = .next t := by
  cases o <;> simp [andThen]

/-- The fetch passes over presented transactions that hold, and keeps them. -/
theorem fetchFrom_skip {s : State} {ahead rest kept : List Tx}
    (h : ∀ y ∈ ahead, ∃ j, decode y = .ok j ∧ holds s j = true) :
    fetchFrom s kept (ahead ++ rest) = fetchFrom s (kept ++ ahead) rest := by
  induction ahead generalizing kept with
  | nil => simp
  | cons y ys ih =>
    obtain ⟨j, hj, hh⟩ := h y List.mem_cons_self
    simp only [List.cons_append, fetchFrom, hj, hh, if_true]
    rw [ih (fun z hz => h z (List.mem_cons_of_mem _ hz)), List.append_assoc]
    rfl

/-- A fetch that finds a transaction finds the first presented one that does not hold. -/
theorem fetchFrom_run {s : State} {ts kept rest : List Tx} {i : Instr}
    (h : fetchFrom s kept ts = .run i rest) : holds s i = false := by
  induction ts generalizing kept with
  | nil => cases h
  | cons t ts ih =>
    simp only [fetchFrom] at h
    split at h
    · cases h
    · split at h
      · exact ih h
      · rename_i hh
        cases h
        exact Bool.eq_false_iff.2 hh

theorem fetch_run {s : State} {rest : List Tx} {i : Instr} (h : fetch s = .run i rest) :
    s.cfg.WellFormed ∧ holds s i = false := by
  unfold fetch at h
  split at h
  · cases h
  · exact ⟨‹_›, fetchFrom_run h⟩

/-- A step that answers idles, or runs a presented transaction that does not hold. -/
theorem step_next {s u : State} (h : step s = .next u) :
    u = s ∨ ∃ i rest, s.cfg.WellFormed ∧ holds s i = false ∧
      exec i (s.withPending rest) = .next u := by
  unfold step at h
  split at h
  · cases h; exact .inl rfl
  · cases h
  · rename_i i rest hf
    exact .inr ⟨i, rest, (fetch_run hf).1, (fetch_run hf).2, h⟩

/-- A step that faults runs a presented transaction that faults. -/
theorem step_fault {s : State} {f : Fault} (h : step s = .fault f) :
    ∃ i rest, s.cfg.WellFormed ∧ holds s i = false ∧ exec i (s.withPending rest) = .fault f := by
  unfold step at h
  split at h
  · cases h
  · cases h
  · rename_i i rest hf
    exact ⟨i, rest, (fetch_run hf).1, (fetch_run hf).2, h⟩

end Sys2Proof.Machine
end

