-- ==== Sys2Proof/Laws/Invariant.lean ====
section
/-! SUPPORT. What the machine's invariant gives the meanings: every byte has its case, every write
keeps a buffer's form, and each half of the invariant reads its own path's fields alone. -/

namespace Sys2Proof.Machine

/-- A write inside the buffer keeps its form. -/
theorem BufSound.write {cfg : Config} {m : Memory} {i : Nat} {v : Byte} (h : BufSound cfg m)
    (hi : i < cfg.maxFrame) : BufSound cfg (memWrite m i v) where
  canonical := memWrite_wf _ _ h.canonical
  inside := fun c hc => by
    rcases mem_memWrite hc with rfl | hc
    · exact hi
    · exact h.inside c hc

/-- The RX half depends on the RX path's fields alone. -/
theorem RxSound.of_fields {cfg : Config} {b b' : Block} (h : RxSound cfg b) (hp : b'.pos = b.pos)
    (hm : b'.rxbuf = b.rxbuf) (hr : b'.res = b.res) : RxSound cfg b' := by
  obtain ⟨h1, h2, h3, h4, h5, h6⟩ := h
  constructor <;> (try rw [hp]) <;> (try rw [hm]) <;> (try rw [hr]) <;> assumption

/-- The TX half depends on the TX path's fields alone. -/
theorem TxSound.of_fields {cfg : Config} {b b' : Block} (h : TxSound cfg b)
    (hm : b'.txbuf = b.txbuf) (ht : b'.txTotal = b.txTotal) (hi : b'.txIdx = b.txIdx)
    (hs : b'.txStatus = b.txStatus) : TxSound cfg b' := by
  obtain ⟨h1, h2, h3, h4, h5, h6, h7⟩ := h
  constructor <;> (try rw [hm]) <;> (try rw [ht]) <;> (try rw [hi]) <;> (try rw [hs]) <;>
    assumption

/-- The cells up to and with `pos` are written once the byte at `pos` is stored. -/
theorem RxSound.written_after {cfg : Config} {blk : Block} (h : RxSound cfg blk) (b : Byte) {n : Nat}
    (hn : n ≤ blk.pos) : (memRead (memWrite blk.rxbuf blk.pos b) n).isSome := by
  rw [memRead_memWrite]
  split
  · rfl
  · exact h.written n (by omega)

/-- Under the RX half every byte has a case, so none faults (R121). -/
theorem RxSound.case {cfg : Config} {blk : Block} (h : RxSound cfg blk) (h4 : 4 ≤ cfg.maxFrame)
    (b : Byte) : ∃ blk' ev, RxCase cfg b blk blk' ev := by
  rcases Nat.lt_or_ge blk.pos 3 with hp | hp
  · rcases (by omega : blk.pos = 0 ∨ blk.pos = 1 ∨ blk.pos = 2) with h0 | h1 | h2
    · by_cases hb : b = cfg.rxMarker
      · exact ⟨_, _, .marker h0 hb (by omega)⟩
      · exact ⟨_, _, .noise h0 hb⟩
    · exact ⟨_, _, .lowLength h1 (by omega)⟩
    · obtain ⟨lo, hl⟩ := Option.isSome_iff_exists.1 (h.written 1 (by omega))
      by_cases ht : cfg.maxFrame < totalOf lo b
      · exact ⟨_, _, .overflow lo h2 (by omega) hl ht⟩
      · by_cases hz : lengthOf lo b = 0
        · exact ⟨_, _, .empty lo h2 (by omega) hl (by omega) hz⟩
        · exact ⟨_, _, .highLength lo h2 (by omega) hl (by omega) hz⟩
  · obtain ⟨lo, hi, hl, hh, _, hlt, hle⟩ := h.frame hp
    by_cases ht : blk.pos + 1 < totalOf lo hi
    · exact ⟨_, _, .inside lo hi hp (by omega) hl hh ht⟩
    · obtain ⟨t, h3⟩ := Option.isSome_iff_exists.1 (h.written_after b hp)
      obtain ⟨args, hargs⟩ := bufReadList_total (buf := .rx)
        (m := memWrite blk.rxbuf blk.pos b) (start := 4) (count := totalOf lo hi - 4)
        (fun i hi => h.written_after b (by omega))
      obtain ⟨hlen, hcells⟩ := bufReadList_ok_iff.1 hargs
      exact ⟨_, _, .last lo hi t args hp (by omega) hl hh (by omega) h3 hlen
        (fun i hi => hcells i (by omega))⟩

/-- The decoder's result is sound when its arguments fit (R156). -/
theorem decodeRecord_sound {cfg : Config} {t : Byte} {args : List Byte}
    (h : args.length ≤ cfg.argCap) : (decodeRecord cfg t args).Sound cfg := by
  unfold decodeRecord
  split
  · exact ⟨h, ‹_›⟩
  · exact ⟨h, ‹_›⟩
  · exact ⟨h, ‹_›, padTo_length _ _, fun i h1 h2 => padTo_getElem?_beyond (by omega) h1⟩

end Sys2Proof.Machine
end

