-- ==== Sys2Proof/Laws/PerInstr.lean ====
section
/-! SUPPORT. Per-transaction facts about the encoding: the word of every transaction belongs to that
transaction's own row of the opcode map (R94) and to no other. -/

namespace Sys2Proof.Laws.EncodedRow

/-- The row of the opcode map a transaction's word belongs to (R94). -/
def row : Instr → OpRow
  | .rxByte _ => rowRxByte
  | .rxClear => rowRxClear
  | .resTake => rowResTake
  | .encReq _ _ _ _ => rowEncReq
  | .outTake => rowOutTake
  | .reset => rowReset

/-- The encoded word hits its row, and hits no other row of the map. -/
def Statement (i : Instr) : Prop :=
  (row i).hits (encodeWord i) = true ∧
    ∀ r ∈ opRows, r.hits (encodeWord i) = true → r = row i

/-- One hit decides the row: the map's rows exclude one another. -/
theorem statement_of_hits {i : Instr} (hm : row i ∈ opRows)
    (h : (row i).hits (encodeWord i) = true) : Statement i := by
  refine ⟨h, fun r hr hh => ?_⟩
  by_cases hne : r = row i
  · exact hne
  · have hd : ∀ p ∈ opRows, ∀ q ∈ opRows, p ≠ q →
        (p.bits ^^^ q.bits) &&& (p.mask &&& q.mask) ≠ 0 := by decide
    rw [not_hits_both (hd _ hm _ hr (Ne.symm hne)) h] at hh
    cases hh

theorem high_byte_zero (b : Byte) : b.setWidth 16 &&& 0xFF00#16 = 0#16 := by
  apply BitVec.eq_of_getLsbD_eq
  intro n hn
  have hz : (0#16 : Half).getLsbD n = false := BitVec.getLsbD_zero
  rw [hz, BitVec.getLsbD_and, BitVec.getLsbD_setWidth]
  rcases Nat.lt_or_ge n 8 with h | h
  · have hm : ∀ n, n < 8 → (0xFF00#16 : Half).getLsbD n = false := by decide
    simp [hm n h]
  · simp [BitVec.getLsbD_of_ge b n h]

theorem rxByte (b : Byte) : Statement (.rxByte b) := by
  refine statement_of_hits (by simp [row, opRows]) ((hits_iff _ _).2 ?_)
  show (0x1000#16 ||| b.setWidth 16) &&& 0xFF00#16 = 0x1000#16
  rw [BitVec.and_comm, BitVec.and_or_distrib_left, BitVec.and_comm (y := b.setWidth 16),
    high_byte_zero]
  decide

theorem rxClear : Statement .rxClear := statement_of_hits (by decide) (by decide)

theorem resTake : Statement .resTake := statement_of_hits (by decide) (by decide)

theorem encReq (k : FrameKind) (t : Byte) (encLen : Half) (encData : List Byte) :
    Statement (.encReq k t encLen encData) := by
  refine statement_of_hits (by simp [row, opRows]) ((hits_iff _ _).2 ?_)
  show (0x4000#16 ||| kindBits k ||| t.setWidth 16) &&& 0xFE00#16 = 0x4000#16
  have h : (0xFE00#16 : Half) = 0xFF00#16 &&& 0xFE00#16 := by decide
  rw [BitVec.and_comm, BitVec.and_or_distrib_left]
  have hz : 0xFE00#16 &&& t.setWidth 16 = 0#16 := by
    rw [BitVec.and_comm, h, ← BitVec.and_assoc, high_byte_zero]
    decide
  rw [hz]
  cases k <;> decide

theorem outTake : Statement .outTake := statement_of_hits (by decide) (by decide)

theorem reset : Statement .reset := statement_of_hits (by decide) (by decide)

end Sys2Proof.Laws.EncodedRow
end

