-- ==== Sys2Proof/Laws/Run.lean ====
section
/-! SUPPORT. How a run of a host machine unfolds one step, and this model's runs. -/

namespace Sys2Proof.Machine

theorem run_of_refused (M : Host.Core) {s : M.State} {r : M.Refusal} (h : M.step s = .refused r)
    (n : Nat) : M.run (n + 1) s = .refused r := by
  simp only [Host.Core.run, h]

theorem run_of_next (M : Host.Core) {s t : M.State} (h : M.step s = .next t) (n : Nat) :
    M.run (n + 1) s = M.run n t := by
  simp only [Host.Core.run, h]

/-- A refused step ends every run that starts with it (R18). -/
theorem core_run_refused {s : State} {r : Refusal} (h : step s = .refused r) (n : Nat) :
    core.run (n + 1) s = .refused r := run_of_refused core h n

/-- A step that answers is the first of its run. -/
theorem core_run_next {s t : State} (h : step s = .next t) (n : Nat) :
    core.run (n + 1) s = core.run n t := run_of_next core h n

end Sys2Proof.Machine
end

