-- ==== Sys2Proof/Tests/Slice0.lean ====
section
/-! SUPPORT. Tests with expected values from spec/95_test_vectors.md, ill-formed terms each check
refuses, and for each statement with hypotheses a state and operands that meet them. -/

namespace Sys2Proof.Tests
open Sys2Proof.Machine

/-! ### Fixtures of spec/95_test_vectors.md section 0, and small states -/

def fRsp : Config :=
  { Config.initial with rxKind := .rsp, lenTable := [⟨0x00#8, 0, 0⟩, ⟨0x01#8, 1, 1⟩, ⟨0x05#8, 4, 168⟩] }

def fSmall : Config :=
  { Config.initial with maxFrame := 8, lenTable := [⟨0x07#8, 0, 1⟩, ⟨0x01#8, 1, 4⟩] }

def fMin : Config where
  maxFrame := 4
  rxKind := .cmd
  lenTable := [⟨0x07#8, 0, 0⟩]
  encTable := [⟨0x00#8, .fixed 0⟩, ⟨0x01#8, .fixed 0⟩]
  errRspCode := none

/-- Bytes in cells from an index on. -/
def cellsFrom : Nat → List Byte → Memory
  | _, [] => []
  | n, b :: bs => (n, b) :: cellsFrom (n + 1) bs

/-- The RX path has stored these bytes of a frame. -/
def receiving (cfg : Config) (bytes : List Byte) : State :=
  { State.resetFor cfg with
    blk := { Block.reset with pos := bytes.length, rxbuf := cellsFrom 0 bytes } }

/-- A result waits. -/
def waiting (cfg : Config) (r : Result) : State :=
  { State.resetFor cfg with blk := { Block.reset with res := some r } }

/-- The TX path emits these bytes, the next one at `idx`. -/
def sending (cfg : Config) (bytes : List Byte) (idx : Nat) : State :=
  { State.resetFor cfg with
    blk := { Block.reset with txbuf := cellsFrom 0 bytes, txTotal := bytes.length, txIdx := idx } }

/-- The result of `3C 01 00 07` under `fSmall`. -/
def okAdvert : Result := .ok 0x07#8 0 [0, 0, 0, 0, 0]

/-- The frame of V2. -/
def okFrame : List Byte := [0x3E#8, 0x01#8, 0x00#8, 0x00#8]

def blkOf : Outcome → Option Block
  | .next s => some s.blk
  | _ => none

def traceOf : Outcome → List (Option Event)
  | .next s => s.trace.map TraceEntry.event
  | _ => []

def refusalOf : Outcome → Option Refusal
  | .refused r => some r
  | _ => none

/-! ### Decoding: words written bit by bit, op | z | k | b (R92, R94) -/

theorem test_word_rx_byte : decode ⟨0b0001_000_0_00111100#16, 0, []⟩ = .ok (.rxByte 0x3C#8) := rfl
theorem test_word_rx_clear : decode ⟨0b0010_000_0_00000000#16, 0, []⟩ = .ok .rxClear := rfl
theorem test_word_res_take : decode ⟨0b0011_000_0_00000000#16, 0, []⟩ = .ok .resTake := rfl
theorem test_word_enc_cmd :
    decode ⟨0b0100_000_0_00000111#16, 2, [9]⟩ = .ok (.encReq .cmd 0x07#8 2 [9]) := rfl
theorem test_word_enc_rsp :
    decode ⟨0b0100_000_1_11111111#16, 0, []⟩ = .ok (.encReq .rsp 0xFF#8 0 []) := rfl
theorem test_word_out_take : decode ⟨0b0101_000_0_00000000#16, 0, []⟩ = .ok .outTake := rfl
theorem test_word_reset : decode ⟨0b0110_000_0_00000000#16, 0, []⟩ = .ok .reset := rfl

/-- V50's refused words, by name. -/
theorem test_word_refused :
    decode (Tx.ofWord 0x0123) = .error .reservedOp ∧
    decode (Tx.ofWord 0xF000) = .error .reservedOp ∧
    decode (Tx.ofWord 0x1200) = .error .nonzeroZ ∧
    decode (Tx.ofWord 0x4E00) = .error .nonzeroZ ∧
    decode (Tx.ofWord 0x1100) = .error .nonzeroK ∧
    decode (Tx.ofWord 0x3100) = .error .nonzeroK ∧
    decode (Tx.ofWord 0x6080) = .error .nonzeroB := ⟨rfl, rfl, rfl, rfl, rfl, rfl, rfl⟩

/-- Each row's word, from reset, is what `step` runs next: it is gone from the presented
transactions, or it holds (R19) and stays. -/
theorem test_fetch_word :
    traceOf (step (State.reset.withFetchWord 16 0x103C)) = [none] ∧
    traceOf (step (State.reset.withFetchWord 16 0x2000)) = [none] ∧
    traceOf (step (State.reset.withFetchWord 16 0x4100)) = [none] ∧
    traceOf (step (State.reset.withFetchWord 16 0x6000)) = [none] ∧
    traceOf (step (State.reset.withFetchWord 16 0x3000)) = [] ∧
    traceOf (step (State.reset.withFetchWord 16 0x5000)) = [] := by decide

/-! ### Ill-formed terms (V24, R93, R231) -/

theorem test_fixtures_accepted :
    Config.initial.firstFailed = none ∧ fRsp.firstFailed = none ∧ fSmall.firstFailed = none ∧
    fMin.firstFailed = none := by decide

theorem test_maxFrame_out_of_range :
    { Config.initial with maxFrame := 3 }.firstFailed = some .maxFrameRange ∧
    { fMin with maxFrame := 65539 }.firstFailed = some .maxFrameRange := by decide

theorem test_len_table_refused :
    { Config.initial with lenTable := [⟨0x07#8, 0, 1⟩, ⟨0x01#8, 1, 4⟩, ⟨0x01#8, 1, 4⟩] }.firstFailed
      = some .lenDuplicate ∧
    { Config.initial with lenTable := [⟨0x07#8, 0, 1⟩, ⟨0x09#8, 3, 2⟩] }.firstFailed
      = some .lenInverted ∧
    { Config.initial with lenTable := [⟨0x01#8, 1, 4⟩] }.firstFailed = some .lenAdvert ∧
    { Config.initial with lenTable := [⟨0x07#8, 1, 1⟩] }.firstFailed = some .lenAdvert ∧
    { fRsp with lenTable := [⟨0x01#8, 1, 4⟩] }.firstFailed = none := by decide

theorem test_enc_table_refused :
    { Config.initial with encTable := [⟨0x00#8, .fixed 0⟩, ⟨0x00#8, .fixed 0⟩] }.firstFailed
      = some .encDuplicate ∧
    { Config.initial with
      encTable := [⟨0x00#8, .fixed 0⟩, ⟨0x01#8, .fixed 1⟩, ⟨0x10#8, .fixed 169⟩] }.firstFailed
      = some .encModeRange ∧
    { Config.initial with
      encTable := [⟨0x00#8, .fixed 0⟩, ⟨0x01#8, .fixed 1⟩, ⟨0x10#8, .selfInfo 169⟩] }.firstFailed
      = some .encModeRange ∧
    { Config.initial with encTable := [⟨0x00#8, .fixed 1⟩, ⟨0x01#8, .fixed 1⟩] }.firstFailed
      = some .encOk ∧
    { Config.initial with encTable := [⟨0x00#8, .fixed 0⟩, ⟨0x01#8, .fixed 2⟩] }.firstFailed
      = some .encErrRsp := by decide

theorem test_request_data_too_long :
    (Instr.encReq .cmd 0x07#8 0 [1, 2, 3, 4]).wf fSmall.argCap = true ∧
    (Instr.encReq .cmd 0x07#8 0 [1, 2, 3, 4, 5]).wf fSmall.argCap = false ∧
    refusalOf (exec (.encReq .cmd 0x07#8 0 [1, 2, 3, 4, 5]) (State.resetFor fSmall)) =
      some .encDataTooLong := by decide

/-! ### One step of each transaction -/

/-- V21: the last byte of the largest frame of `fSmall`. -/
theorem test_rx_last_byte :
    (blkOf (exec (.rxByte 0xA4#8)
      (receiving fSmall [0x3C#8, 0x05#8, 0x00#8, 0x01#8, 0xA1#8, 0xA2#8, 0xA3#8]))).map
      (fun b => (b.pos, b.res)) =
    some (0, some (.ok 0x01#8 4 [0xA1#8, 0xA2#8, 0xA3#8, 0xA4#8, 0x00#8])) := by decide

/-- V13: `3C FD FF` overflows; a 16-bit sum would wrap to 0. -/
theorem test_rx_overflow_no_wrap :
    (blkOf (exec (.rxByte 0xFF#8) (receiving Config.initial [0x3C#8, 0xFD#8]))).map Block.pos = some 0 ∧
    traceOf (exec (.rxByte 0xFF#8) (receiving Config.initial [0x3C#8, 0xFD#8])) =
      [some (.frameOverflow 65533)] := by decide

/-- V20: a waiting result survives `RX_CLEAR`; V19: a partial frame does not. -/
theorem test_rx_clear :
    blkOf (exec .rxClear (waiting fSmall okAdvert)) = some (waiting fSmall okAdvert).blk ∧
    (blkOf (exec .rxClear (receiving fSmall [0x3C#8, 0x05#8, 0x00#8, 0x01#8]))).map Block.pos =
      some 0 := by decide

/-- P1 row 11. -/
theorem test_res_take :
    blkOf (exec .resTake (waiting fSmall okAdvert)) = some Block.reset ∧
    traceOf (exec .resTake (State.resetFor fSmall)) = [] := by decide

/-- V42: no room for a name. V41: an explicit length past `ARG_CAP`. -/
theorem test_enc_req :
    (blkOf (exec (.encReq .rsp 0x05#8 0 [0x11#8, 0x22#8, 0x33#8, 0x44#8]) (State.resetFor fSmall))).map
      (fun b => (b.txbuf, b.txTotal)) =
      some (cellsFrom 0 [0x3E#8, 0x05#8, 0x00#8, 0x05#8, 0x11#8, 0x22#8, 0x33#8, 0x44#8], 8) ∧
    blkOf (exec (.encReq .cmd 0x01#8 5 []) (State.resetFor fSmall)) =
      some { Block.reset with txStatus := .tooLong } := by decide

/-- V33: `FIXED(0)` ignores `enc_len`. V29: zero padding past the end of the data. -/
theorem test_enc_req_length :
    requestFrame fSmall .rsp 0x00#8 5 [1, 2, 3] = okFrame ∧
    requestFrame fSmall .cmd 0x01#8 3 [0xAA#8] =
      [0x3C#8, 0x04#8, 0x00#8, 0x01#8, 0xAA#8, 0x00#8, 0x00#8] := by decide

/-- V2 and V43: the third byte leaves with `out_last = 0`, the fourth with 1. -/
theorem test_out_take :
    (match exec .outTake (sending fSmall okFrame 2) with
      | .next s => (s.emitted, s.blk.txIdx, s.blk.txTotal) | _ => ([], 0, 0)) =
      ([(0x00#8, false)], 3, 4) ∧
    (match exec .outTake (sending fSmall okFrame 3) with
      | .next s => (s.emitted, s.blk.txIdx, s.blk.txTotal) | _ => ([], 9, 9)) =
      ([(0x00#8, true)], 0, 0) := by decide

/-- V46. -/
theorem test_reset :
    blkOf (exec .reset (sending fSmall okFrame 2)) = some Block.reset ∧
    blkOf (exec .reset (receiving fSmall [0x3C#8, 0x05#8])) = some Block.reset := by decide

/-- V49. -/
theorem test_status :
    (State.resetFor Config.initial).status = 0x00#8 ∧ (State.resetFor fRsp).status = 0x08#8 ∧
    (waiting fSmall okAdvert).status = 0x01#8 ∧ (sending fRsp okFrame 0).status = 0x0A#8 := by decide

/-- A `send` while a frame is being emitted is a hold (notes/assumptions/19.md), and a list may end in a
comma (notes/assumptions/20.md). -/
theorem test_written_form_choices :
    blkOf (send .cmd 0x07#8 0 [] (sending fSmall okFrame 2)) = some (sending fSmall okFrame 2).blk ∧
    assemble ['f', 'e', 'e', 'd', ' ', '[', '1', ',', ']'] = some (.feed [1]) ∧
    assemble ['r', 'x', ' ', '2', '5', '6'] = none := by decide

/-- V48: a byte beside a clear is not taken; reset replaces everything. -/
theorem test_same_cycle :
    (blkOf (clockEdge { rxClear := true, inValid := true, inData := 0x3C#8 }
      (receiving fSmall [0x3C#8, 0x01#8]))).map Block.pos = some 0 ∧
    blkOf (clockEdge { rst := true, inValid := true, inData := 0x3C#8, encValid := true }
      (State.resetFor fSmall)) = some Block.reset := by decide

/-! ### States and operands that meet the hypotheses of the statements -/

theorem witness_opcode_map_rows :
    (0x10FF#16 &&& 0xFF00#16 = 0x1000#16) ∧ (0x2000#16 &&& 0xFFFF#16 = 0x2000#16) ∧
    (0x3000#16 &&& 0xFFFF#16 = 0x3000#16) ∧ (0x41FF#16 &&& 0xFE00#16 = 0x4000#16) ∧
    (0x5000#16 &&& 0xFFFF#16 = 0x5000#16) ∧ (0x6000#16 &&& 0xFFFF#16 = 0x6000#16) ∧
    (0x4200#16 &&& 0xFF00#16 ≠ 0x1000#16 ∧ 0x4200#16 &&& 0xFFFF#16 ≠ 0x2000#16 ∧
      0x4200#16 &&& 0xFFFF#16 ≠ 0x3000#16 ∧ 0x4200#16 &&& 0xFE00#16 ≠ 0x4000#16 ∧
      0x4200#16 &&& 0xFFFF#16 ≠ 0x5000#16 ∧ 0x4200#16 &&& 0xFFFF#16 ≠ 0x6000#16) := by decide

/-- One word per disjunct, and data one byte too long. -/
theorem witness_reserved_and_malformed :
    (0x0FFF#16).extractLsb' 12 4 = 0#4 ∧ 7 ≤ ((0x7000#16).extractLsb' 12 4).toNat ∧
    (0x1200#16).extractLsb' 9 3 ≠ 0#3 ∧
    ((0x3100#16).extractLsb' 8 1 ≠ 0#1 ∧ (0x3100#16).extractLsb' 12 4 ≠ 4#4) ∧
    ((0x2001#16).extractLsb' 0 8 ≠ 0#8 ∧ (0x2001#16).extractLsb' 12 4 ≠ 1#4 ∧
      (0x2001#16).extractLsb' 12 4 ≠ 4#4) ∧
    (State.resetFor fMin).cfg.argCap < [0x00#8].length := by decide

theorem witness_decoded_word : decode ⟨0x41FF#16, 3, [1]⟩ = .ok (.encReq .rsp 0xFF#8 3 [1]) := rfl

/-- `OUT_TAKE` and `RES_TAKE` hold from reset, and an `RX_BYTE` and a `RESET` stand behind them. -/
def presented : State :=
  (State.resetFor fSmall).withPending
    ([Tx.ofWord 0x5000, Tx.ofWord 0x3000] ++ Tx.ofWord 0x103C :: [Tx.ofWord 0x6000])

theorem witness_step_runs :
    presented.cfg.WellFormed ∧
    presented.pending =
      [Tx.ofWord 0x5000, Tx.ofWord 0x3000] ++ Tx.ofWord 0x103C :: [Tx.ofWord 0x6000] ∧
    (∀ y ∈ [Tx.ofWord 0x5000, Tx.ofWord 0x3000], ∃ j, decode y = .ok j ∧
      holds presented j = true) ∧
    decode (Tx.ofWord 0x103C) = .ok (.rxByte 0x3C#8) ∧ holds presented (.rxByte 0x3C#8) = false := by
  refine ⟨by decide, rfl, fun y hy => ?_, rfl, rfl⟩
  rcases List.mem_cons.1 hy with rfl | hy
  · exact ⟨.outTake, rfl, rfl⟩
  · rcases List.mem_cons.1 hy with rfl | hy
    · exact ⟨.resTake, rfl, rfl⟩
    · cases hy

/-- The same with nothing presented ahead. -/
theorem witness_step_runs_first :
    (presentOnly (State.resetFor fSmall) 0x103C).cfg.WellFormed ∧
    (presentOnly (State.resetFor fSmall) 0x103C).pending = [] ++ Tx.ofWord 0x103C :: [] ∧
    (∀ y ∈ ([] : List Tx), ∃ j, decode y = .ok j ∧
      holds (presentOnly (State.resetFor fSmall) 0x103C) j = true) ∧
    decode (Tx.ofWord 0x103C) = .ok (.rxByte 0x3C#8) ∧
    holds (presentOnly (State.resetFor fSmall) 0x103C) (.rxByte 0x3C#8) = false :=
  ⟨by decide, rfl, fun _ hy => (nomatch hy), rfl, rfl⟩

theorem witness_step_idles :
    (presentOnly (State.resetFor fSmall) 0x3000).cfg.WellFormed ∧
    ∀ y ∈ (presentOnly (State.resetFor fSmall) 0x3000).pending,
      ∃ j, decode y = .ok j ∧ holds (presentOnly (State.resetFor fSmall) 0x3000) j = true := by
  refine ⟨by decide, fun y hy => ⟨.resTake, ?_, rfl⟩⟩
  rcases List.mem_cons.1 hy with rfl | hy
  · rfl
  · cases hy

/-- A request with one byte more than `ARG_CAP`. -/
def overlong : Tx := ⟨0x4007#16, 0, [1, 2, 3, 4, 5]⟩

/-- One state per clause: an ill-formed configuration, `MAX_FRAME` one below and one above its range,
a reserved word presented, and an overlong request presented. -/
theorem witness_refusals :
    ((State.resetFor { fSmall with maxFrame := 3 }).cfg.firstFailed = some .maxFrameRange ∧
      (State.resetFor { fSmall with maxFrame := 3 }).cfg.maxFrame < 4 ∧
      65538 < (State.resetFor { fSmall with maxFrame := 65539 }).cfg.maxFrame) ∧
    ((presentOnly (State.resetFor fSmall) 0x7000).cfg.WellFormed ∧
      (presentOnly (State.resetFor fSmall) 0x7000).pending = [Tx.ofWord 0x7000] ∧
      decode (Tx.ofWord 0x7000) = .error .reservedOp) ∧
    (((State.resetFor fSmall).present overlong).cfg.WellFormed ∧
      ((State.resetFor fSmall).present overlong).pending = [overlong] ∧
      decode overlong = .ok (.encReq .cmd 0x07#8 0 [1, 2, 3, 4, 5]) ∧
      ((State.resetFor fSmall).present overlong).cfg.argCap < [1#8, 2, 3, 4, 5].length) :=
  ⟨by decide, ⟨by decide, rfl, rfl⟩, by decide, rfl, rfl, by decide⟩

/-- A held transaction of each kind that can hold, and a request of exactly `ARG_CAP` bytes. -/
theorem witness_held :
    holds (waiting fSmall okAdvert) (.rxByte 0x3C#8) = true ∧
    holds (State.resetFor fSmall) .resTake = true ∧
    holds (sending fSmall okFrame 3) (.encReq .cmd 0x07#8 0 [1, 2, 3, 4]) = true ∧
    [1#8, 2, 3, 4].length ≤ (sending fSmall okFrame 3).cfg.argCap ∧
    holds (State.resetFor fSmall) .outTake = true := by decide

/-- A frame of `fSmall` one byte before its end. -/
def beforeLast : State := receiving fSmall [0x3C#8, 0x01#8, 0x00#8]

theorem witness_holds_lifted :
    (∃ t, exec .resTake (waiting fSmall okAdvert) = .next t) ∧
    ((sending fSmall okFrame 3).blk.txIdx + 1 = (sending fSmall okFrame 3).blk.txTotal ∧
      ∃ t, exec .outTake (sending fSmall okFrame 3) = .next t) ∧
    (requestLength (State.resetFor fSmall).cfg .cmd 0x01#8 4 [] ≤ (State.resetFor fSmall).cfg.argCap ∧
      ∃ t, exec (.encReq .cmd 0x01#8 4 []) (State.resetFor fSmall) = .next t) ∧
    (beforeLast.blk.res = none ∧ 3 ≤ beforeLast.blk.pos ∧
      memRead beforeLast.blk.rxbuf 1 = some 0x01#8 ∧ memRead beforeLast.blk.rxbuf 2 = some 0x00#8 ∧
      beforeLast.blk.pos + 1 = totalOf 0x01#8 0x00#8 ∧
      ∃ t, exec (.rxByte 0x07#8) beforeLast = .next t) :=
  ⟨⟨_, rfl⟩, ⟨by decide, _, rfl⟩, ⟨by decide, _, rfl⟩, by decide, by decide, by decide, by decide,
    by decide, _, rfl⟩

/-- Both kinds, at the smallest capacity. -/
theorem witness_searching :
    ((State.resetFor fMin).cfg.rxKind = .cmd ∧ (State.resetFor fRsp).cfg.rxKind = .rsp) ∧
    (State.resetFor fMin).blk.res = none ∧ (State.resetFor fMin).blk.pos = 0 ∧
    4 ≤ (State.resetFor fMin).cfg.maxFrame ∧ (State.resetFor fRsp).blk.res = none ∧
    (State.resetFor fRsp).blk.pos = 0 ∧ 4 ≤ (State.resetFor fRsp).cfg.maxFrame := by decide

theorem witness_low_length :
    (receiving fMin [0x3C#8]).blk.res = none ∧ (receiving fMin [0x3C#8]).blk.pos = 1 ∧
    4 ≤ (receiving fMin [0x3C#8]).cfg.maxFrame := by decide

/-- Lengths at the boundaries of `fSmall`: 0 (empty), 5 (largest), 6 (overflow). -/
theorem witness_high_length :
    (∀ lo ∈ [0x00#8, 0x05#8, 0x06#8],
      (receiving fSmall [0x3C#8, lo]).blk.res = none ∧ (receiving fSmall [0x3C#8, lo]).blk.pos = 2 ∧
      4 ≤ (receiving fSmall [0x3C#8, lo]).cfg.maxFrame ∧
      memRead (receiving fSmall [0x3C#8, lo]).blk.rxbuf 1 = some lo) ∧
    fSmall.maxFrame < 3 + ((0x06#8).toNat + 256 * (0x00#8).toNat) ∧
    ¬ fSmall.maxFrame < 3 + ((0x05#8).toNat + 256 * (0x00#8).toNat) := by decide

/-- The body byte before the last one of the largest frame. -/
def beforeLastTwo : State :=
  receiving fSmall [0x3C#8, 0x05#8, 0x00#8, 0x01#8, 0xA1#8, 0xA2#8]

theorem witness_body_byte :
    beforeLastTwo.blk.res = none ∧ 3 ≤ beforeLastTwo.blk.pos ∧
    beforeLastTwo.blk.pos < beforeLastTwo.cfg.maxFrame ∧
    memRead beforeLastTwo.blk.rxbuf 1 = some 0x05#8 ∧
    memRead beforeLastTwo.blk.rxbuf 2 = some 0x00#8 ∧
    beforeLastTwo.blk.pos + 1 < 3 + ((0x05#8).toNat + 256 * (0x00#8).toNat) := by decide

/-- The shortest frame: the last byte is the type byte itself. -/
theorem witness_last_byte_shortest :
    beforeLast.blk.res = none ∧ 3 ≤ beforeLast.blk.pos ∧
    beforeLast.blk.pos < beforeLast.cfg.maxFrame ∧ memRead beforeLast.blk.rxbuf 1 = some 0x01#8 ∧
    memRead beforeLast.blk.rxbuf 2 = some 0x00#8 ∧
    beforeLast.blk.pos + 1 = 3 + ((0x01#8).toNat + 256 * (0x00#8).toNat) ∧
    memRead (memWrite beforeLast.blk.rxbuf beforeLast.blk.pos 0x07#8) 3 = some 0x07#8 ∧
    ([] : List Byte).length = beforeLast.blk.pos - 3 ∧
    ∀ n, n < ([] : List Byte).length →
      memRead (memWrite beforeLast.blk.rxbuf beforeLast.blk.pos 0x07#8) (4 + n) =
        ([] : List Byte)[n]? := by decide

/-- The largest frame of `fSmall`, with its four arguments. -/
def beforeLastLargest : State :=
  receiving fSmall [0x3C#8, 0x05#8, 0x00#8, 0x01#8, 0xA1#8, 0xA2#8, 0xA3#8]

theorem witness_last_byte_largest :
    beforeLastLargest.blk.res = none ∧ 3 ≤ beforeLastLargest.blk.pos ∧
    beforeLastLargest.blk.pos < beforeLastLargest.cfg.maxFrame ∧
    memRead beforeLastLargest.blk.rxbuf 1 = some 0x05#8 ∧
    memRead beforeLastLargest.blk.rxbuf 2 = some 0x00#8 ∧
    beforeLastLargest.blk.pos + 1 = 3 + ((0x05#8).toNat + 256 * (0x00#8).toNat) ∧
    memRead (memWrite beforeLastLargest.blk.rxbuf beforeLastLargest.blk.pos 0xA4#8) 3 = some 0x01#8 ∧
    [0xA1#8, 0xA2#8, 0xA3#8, 0xA4#8].length = beforeLastLargest.blk.pos - 3 ∧
    ∀ n, n < [0xA1#8, 0xA2#8, 0xA3#8, 0xA4#8].length →
      memRead (memWrite beforeLastLargest.blk.rxbuf beforeLastLargest.blk.pos 0xA4#8) (4 + n) =
        [0xA1#8, 0xA2#8, 0xA3#8, 0xA4#8][n]? := by decide

/-- A state in which both paths are busy: one byte before the end of the largest frame of `fSmall`,
and an "ok" response with its last byte to emit. -/
def busy : State :=
  { State.resetFor fSmall with
    blk := { beforeLastLargest.blk with txbuf := cellsFrom 0 okFrame, txTotal := 4, txIdx := 3 } }

theorem witness_invariant_busy : busy.Inv where
  config := by decide
  rx :=
    { buffer := ⟨by decide, by decide⟩
      written := by decide
      marker := by decide
      frame := fun _ => ⟨0x05#8, 0x00#8, by decide, by decide, by decide, by decide, by decide⟩
      searching := by decide
      result := fun _ h => (nomatch h) }
  tx :=
    { buffer := ⟨by decide, by decide⟩
      idle := by decide
      index := by decide
      size := by decide
      written := by decide
      header := fun _ => ⟨.rsp, 0x01#8, 0x00#8, by decide, by decide, by decide, by decide⟩
      status := by decide }

/-- R120 and R42: inside a frame, before its last byte, under the invariant. -/
theorem witness_inside_a_frame :
    busy.Inv ∧ busy.blk.res = none ∧ busy.blk.pos ≠ 0 ∧ ∃ t, exec (.rxByte 0x3C#8) busy = .next t :=
  ⟨witness_invariant_busy, rfl, by decide, _, rfl⟩

/-- A byte that is stored, a byte that holds, and noise. -/
theorem witness_rx_byte_frame :
    (∃ t, exec (.rxByte 0xA4#8) busy = .next t) ∧
    ((∃ t, exec (.rxByte 0x3C#8) (waiting fSmall okAdvert) = .next t) ∧
      (waiting fSmall okAdvert).blk.res ≠ none) ∧
    ((∃ t, exec (.rxByte 0x3E#8) (State.resetFor fSmall) = .next t) ∧
      (State.resetFor fSmall).blk.pos = 0 ∧ 0x3E#8 ≠ (State.resetFor fSmall).cfg.rxMarker) :=
  ⟨⟨_, rfl⟩, ⟨⟨_, rfl⟩, by decide⟩, ⟨_, rfl⟩, rfl, by decide⟩

/-- V23: a miss, and counts at and just outside the bounds `(1, 4)`. -/
theorem witness_verdicts :
    lookupLen fSmall.lenTable 0x55#8 = none ∧ lookupLen fSmall.lenTable 0x01#8 = some (1, 4) ∧
    0 < (1#16).toNat ∧ 5 > (4#16).toNat ∧ (1#16).toNat ≤ 1 ∧ 4 ≤ (4#16).toNat := by decide

/-- F-SMALL's table and the same entries in the other order. -/
theorem witness_table_order :
    (fSmall.lenTable.map LenEntry.id).Nodup ∧ fSmall.lenTable.Perm [⟨0x01#8, 1, 4⟩, ⟨0x07#8, 0, 1⟩] ∧
    ∀ t, lookupLen fSmall.lenTable t = lookupLen fSmall.lenTable t :=
  ⟨by decide, .swap .., fun _ => rfl⟩

/-- V6 and V5: a miss, a count below and a count above the bounds, two lists of one length. -/
theorem witness_error_results :
    validate fSmall 0x55#8 [1#8].length = .noEntry ∧
    validate fSmall 0x01#8 ([] : List Byte).length = .outOfRange 1 4 ∧
    validate fSmall 0x07#8 [1#8, 2].length = .outOfRange 0 1 ∧ [1#8].length = [2#8].length ∧
    validate fSmall 0x55#8 [1#8].length ≠ .pass := by decide

/-- The argument counts 0 and `ARG_CAP`. -/
theorem witness_decoded_record :
    ([] : List Byte).length ≤ fSmall.argCap ∧ validate fSmall 0x07#8 ([] : List Byte).length = .pass ∧
    [1#8, 2, 3, 4].length ≤ fSmall.argCap ∧ validate fSmall 0x01#8 [1#8, 2, 3, 4].length = .pass := by
  decide

/-- `n = 0` and `n = ARG_CAP` of an `OK` result's cells. -/
theorem witness_result_bus : 0 ≤ [0#8].length ∧ 4 ≤ [1#8, 2, 3, 4, 0].length := by decide

/-- Each length mode of F-ENC, with a prefix up to `ARG_CAP`. -/
theorem witness_length_modes :
    lookupEnc fSmall.encTable 0x80#8 = none ∧
    lookupEnc [⟨0x33#8, .explicit⟩] 0x33#8 = some .explicit ∧
    lookupEnc fSmall.encTable 0x01#8 = some (.fixed 1) ∧
    lookupEnc fSmall.encTable 0x05#8 = some (.selfInfo 4) ∧ 4 ≤ fSmall.argCap := by decide

/-- Requests of length 0 and of `ARG_CAP`, with the data at its longest. -/
theorem witness_accepted_request :
    4 ≤ (State.resetFor fSmall).cfg.maxFrame ∧ (State.resetFor fSmall).blk.txTotal = 0 ∧
    ([] : List Byte).length ≤ (State.resetFor fSmall).cfg.argCap ∧
    requestLength (State.resetFor fSmall).cfg .rsp 0x00#8 0 [] = 0 ∧
    0 ≤ (State.resetFor fSmall).cfg.argCap ∧
    [1#8, 2, 3, 4].length ≤ (State.resetFor fSmall).cfg.argCap ∧
    requestLength (State.resetFor fSmall).cfg .cmd 0x01#8 4 [1, 2, 3, 4] = 4 ∧
    4 ≤ (State.resetFor fSmall).cfg.argCap := by decide

/-- V41: one past `ARG_CAP`. -/
theorem witness_too_long :
    ([] : List Byte).length ≤ (State.resetFor fSmall).cfg.argCap ∧
    (State.resetFor fSmall).blk.txTotal = 0 ∧ fSmall.WellFormed ∧
    (State.resetFor fSmall).cfg.argCap < requestLength (State.resetFor fSmall).cfg .cmd 0x01#8 5 [] ∧
    fSmall.argCap < requestLength fSmall .rsp 0x80#8 5 [] := by decide

/-- The last byte of a frame and the one before it. -/
theorem witness_out_take :
    (sending fSmall okFrame 3).blk.txIdx < (sending fSmall okFrame 3).blk.txTotal ∧
    memRead (sending fSmall okFrame 3).blk.txbuf (sending fSmall okFrame 3).blk.txIdx = some 0x00#8 ∧
    (sending fSmall okFrame 3).blk.txIdx + 1 = (sending fSmall okFrame 3).blk.txTotal ∧
    (sending fSmall okFrame 0).blk.txIdx < (sending fSmall okFrame 0).blk.txTotal ∧
    memRead (sending fSmall okFrame 0).blk.txbuf (sending fSmall okFrame 0).blk.txIdx = some 0x3E#8 ∧
    (sending fSmall okFrame 0).blk.txIdx + 1 ≠ (sending fSmall okFrame 0).blk.txTotal := by decide

/-- An accepted request, a request that holds and one that is too long. -/
theorem witness_enc_req_frame :
    (∃ u, exec (.encReq .rsp 0x00#8 0 []) (State.resetFor fSmall) = .next u) ∧
    ((∃ u, exec (.encReq .rsp 0x00#8 0 []) (sending fSmall okFrame 0) = .next u) ∧
      (sending fSmall okFrame 0).blk.txTotal ≠ 0) ∧
    ((∃ u, exec (.encReq .cmd 0x01#8 5 []) (State.resetFor fSmall) = .next u) ∧
      (State.resetFor fSmall).cfg.argCap <
        requestLength (State.resetFor fSmall).cfg .cmd 0x01#8 5 []) :=
  ⟨⟨_, rfl⟩, ⟨⟨_, rfl⟩, by decide⟩, ⟨_, rfl⟩, by decide⟩

theorem witness_result_waits : (waiting fSmall okAdvert).blk.res = some okAdvert := rfl

theorem witness_idempotent :
    ∃ t u, exec .rxClear busy = .next t ∧ exec .rxClear t = .next u ∧
      ∃ t' u', exec .reset busy = .next t' ∧ exec .reset t' = .next u' :=
  ⟨_, _, rfl, rfl, _, _, rfl, rfl⟩

theorem witness_takes_and_clear :
    (∃ t, exec .resTake (waiting fSmall okAdvert) = .next t) ∧ (∃ t, exec .rxClear busy = .next t) ∧
    ∃ t, exec .outTake busy = .next t := ⟨⟨_, rfl⟩, ⟨_, rfl⟩, _, rfl⟩

/-- The last byte of a frame, and an idle path with no cell written. -/
theorem witness_port_signals :
    (busy.blk.txTotal ≠ 0 → memRead busy.blk.txbuf busy.blk.txIdx = some 0x00#8) ∧
    ((State.resetFor fSmall).blk.txTotal ≠ 0 →
      memRead (State.resetFor fSmall).blk.txbuf (State.resetFor fSmall).blk.txIdx = some 0x00#8) := by
  decide

theorem witness_reset_answers : ∃ t, exec .reset busy = .next t := ⟨_, rfl⟩

/-- A row that ends at the buffer's last cell. -/
theorem witness_row_written :
    bufWriteList fSmall .tx [] 4 [1, 2, 3, 4] = .ok [(4, 1), (5, 2), (6, 3), (7, 4)] := rfl

theorem witness_reset_well_formed : fMin.WellFormed ∧ fRsp.WellFormed := by decide

/-- The byte that completes the frame, presented to the busy machine. -/
theorem witness_step_from_invariant :
    (presentOnly busy 0x10A4).Inv ∧ ∃ t, step (presentOnly busy 0x10A4) = .next t :=
  ⟨⟨witness_invariant_busy.config, witness_invariant_busy.rx, witness_invariant_busy.tx⟩, _, rfl⟩

theorem witness_canonical_step :
    (presentOnly busy 0x10A4).blk.rxbuf.wf ∧ (presentOnly busy 0x10A4).blk.txbuf.wf ∧
    ∃ t, step (presentOnly busy 0x10A4) = .next t := ⟨by decide, by decide, _, rfl⟩

/-- An RX-path and a TX-path transaction that both transfer. -/
theorem witness_commuting :
    (∃ si, exec (.rxByte 0xA4#8) busy = .next si) ∧ ∃ sj, exec .outTake busy = .next sj :=
  ⟨⟨_, rfl⟩, _, rfl⟩

/-- For R16 and R201: a transaction of each kind that answers. -/
theorem witness_paths :
    (∃ t, exec (.rxByte 0xA4#8) busy = .next t) ∧ (∃ t, exec .rxClear busy = .next t) ∧
    (∃ t, exec .resTake (waiting fSmall okAdvert) = .next t) ∧
    ((∃ t, exec .resTake busy = .next t) ∧ busy.blk.res = none) ∧
    (∃ t, exec (.encReq .rsp 0x00#8 0 []) beforeLast = .next t) ∧
    (∃ t, exec .outTake busy = .next t) ∧ ∃ t, exec .reset busy = .next t :=
  ⟨⟨_, rfl⟩, ⟨_, rfl⟩, ⟨_, rfl⟩, ⟨⟨_, rfl⟩, rfl⟩, ⟨_, rfl⟩, ⟨_, rfl⟩, _, rfl⟩

/-- One transaction that raises an event and one that raises none. -/
theorem witness_events :
    ((∃ t, exec (.encReq .cmd 0x01#8 5 []) (State.resetFor fSmall) = .next t) ∧
      holds (State.resetFor fSmall) (.encReq .cmd 0x01#8 5 []) = false) ∧
    ((∃ t, exec (.rxByte 0xA4#8) busy = .next t) ∧ holds busy (.rxByte 0xA4#8) = false) :=
  ⟨⟨⟨_, rfl⟩, by decide⟩, ⟨_, rfl⟩, by decide⟩

/-- R124: the shortest and the longest argument list of `fSmall`. -/
theorem witness_whole_frame :
    4 ≤ (State.resetFor fSmall).cfg.maxFrame ∧ (State.resetFor fSmall).cfg.maxFrame ≤ 65538 ∧
    (State.resetFor fSmall).blk.res = none ∧ (State.resetFor fSmall).blk.pos = 0 ∧
    ([] : List Byte).length ≤ (State.resetFor fSmall).cfg.argCap ∧
    [1#8, 2, 3, 4].length ≤ (State.resetFor fSmall).cfg.argCap := by decide

/-- V8 (a) with sender and receiver F-SMALL, bounds `1 <= 3 <= 4`. -/
theorem witness_round_trip :
    (State.resetFor fSmall).cfg.WellFormed ∧
    requestLength (State.resetFor fSmall).cfg .cmd 0x01#8 3 [1, 2, 3] ≤
      (State.resetFor fSmall).cfg.argCap ∧
    (State.resetFor fSmall).cfg.rxKind = .cmd ∧ (State.resetFor fSmall).blk.pos = 0 ∧
    (State.resetFor fSmall).blk.res = none ∧
    lookupLen (State.resetFor fSmall).cfg.lenTable 0x01#8 = some (1, 4) ∧
    (1#16).toNat ≤ requestLength (State.resetFor fSmall).cfg .cmd 0x01#8 3 [1, 2, 3] ∧
    requestLength (State.resetFor fSmall).cfg .cmd 0x01#8 3 [1, 2, 3] ≤ (4#16).toNat := by decide

/-- V4 cut inside a frame: the first chunk is taken whole. -/
theorem witness_chunk :
    ∃ t, feed [0x3C#8, 0x01#8, 0x00#8] (State.resetFor fSmall) = .next (t, []) := ⟨_, rfl⟩

/-- A state of the invariant with no result waiting. -/
theorem witness_feed : busy.Inv ∧ busy.blk.res = none := ⟨witness_invariant_busy, rfl⟩

/-- V10's noise. -/
theorem witness_noise :
    (State.resetFor fSmall).blk.res = none ∧ (State.resetFor fSmall).blk.pos = 0 ∧
    ∀ b ∈ [0x00#8, 0xFF#8, 0x3E#8, 0x55#8, 0x3E#8], b ≠ (State.resetFor fSmall).cfg.rxMarker := by
  decide

/-- Cycles with each transaction the clauses speak of. -/
theorem witness_clock_edge :
    (State.resetFor fSmall).cfg.WellFormed ∧
    transfers { rst := true, rxClear := true } busy = [.reset] ∧
    transfers { rxClear := true, inValid := true } busy = [.rxClear] ∧
    .rxByte 0x3C#8 ∈ transfers { inValid := true, inData := 0x3C#8, resReady := true } busy ∧
    .encReq .cmd 0x07#8 0 [] ∈ transfers { encValid := true, encType := 0x07#8, outReady := true }
      (State.resetFor fSmall) := by decide

/-- The pins of each handshake that transfers, and of each whose `ready` is 0. -/
theorem witness_clock_edge_handshakes :
    .rxByte 0x3C#8 ∈ transfers { inValid := true, inData := 0x3C#8 } (State.resetFor fSmall) ∧
    .rxByte 0x3C#8 ∉ transfers { inValid := true, inData := 0x3C#8 } (waiting fSmall okAdvert) ∧
    .resTake ∈ transfers { resReady := true } (waiting fSmall okAdvert) ∧
    .resTake ∉ transfers { resReady := true } (State.resetFor fSmall) ∧
    .encReq .cmd 0x00#8 0 [] ∉ transfers { encValid := true } busy ∧
    .outTake ∈ transfers { outReady := true } busy ∧
    .outTake ∉ transfers { outReady := true } (State.resetFor fSmall) := by decide

/-- F-SMALL's tables: a key with an entry and one without. -/
theorem witness_lookups :
    (fSmall.lenTable.map LenEntry.id).Nodup ∧ (⟨0x01#8, 1, 4⟩ : LenEntry) ∈ fSmall.lenTable ∧
    (∀ e ∈ fSmall.lenTable, e.id ≠ 0x55#8) ∧
    (fSmall.encTable.map EncEntry.code).Nodup ∧
    (⟨0x05#8, .selfInfo 4⟩ : EncEntry) ∈ fSmall.encTable ∧
    ∀ e ∈ fSmall.encTable, e.code ≠ 0x80#8 := by decide

/-- `busy` after an earlier frame: cell 7 of `rxbuf` and cells 4 and 5 of `txbuf` are stale. -/
def busyStale : State :=
  { busy with
    blk := { busy.blk with
      rxbuf := busy.blk.rxbuf ++ [(7, 0xEE#8)]
      txbuf := busy.blk.txbuf ++ [(4, 0xEE#8), (5, 0xEE#8)] } }

theorem witness_stale_cells :
    SameUpToStale busy busyStale ∧ busy.Inv ∧
    (∃ u, exec (.rxByte 0xA4#8) busy = .next u) ∧ ∃ u, exec .outTake busy = .next u :=
  ⟨⟨rfl, rfl, by decide, rfl, by decide, rfl, rfl, rfl, rfl, rfl, rfl, rfl⟩, witness_invariant_busy,
    ⟨_, rfl⟩, _, rfl⟩

end Sys2Proof.Tests
end

/-! ## Scope (spec/00_scope.md): configuration, tables, holds, steps, ownership of state -/

/-! ### The tables and the checks of a configuration (R6, R46, R130, R171) -/

namespace Sys2Proof

/-- In a table without duplicates the lookup answers exactly the entries (R46, R131). -/
theorem lookupLen_eq_some_iff {es : List LenEntry} (hd : (es.map LenEntry.id).Nodup) {t : Byte}
    {lo hi : Half} : lookupLen es t = some (lo, hi) ↔ ⟨t, lo, hi⟩ ∈ es :=
  ⟨lookupLen_mem, lookupLen_of_mem hd⟩

/-- In a table without duplicates the lookup answers exactly the entries (R46, R173). -/
theorem lookupEnc_eq_some_iff {es : List EncEntry} (hd : (es.map EncEntry.code).Nodup) {t : Byte}
    {m : EncMode} : lookupEnc es t = some m ↔ ⟨t, m⟩ ∈ es :=
  ⟨lookupEnc_mem, lookupEnc_of_mem hd⟩

theorem Config.wellFormed_iff_passes {cfg : Config} : cfg.WellFormed ↔ ∀ c, cfg.passes c = true :=
  ⟨Config.WellFormed.passes, Config.wellFormed_of_passes⟩

theorem EncMode.fits_iff {m : EncMode} {argCap : Nat} :
    m.fits argCap = true ↔ ∀ n, m = .fixed n ∨ m = .selfInfo n → n ≤ argCap := by
  cases m <;> simp [EncMode.fits]

/-- R130 check 5 in terms of the table's entries. -/
theorem Config.advertOk_iff {cfg : Config} (hd : (cfg.lenTable.map LenEntry.id).Nodup) :
    cfg.advertOk = true ↔
      (cfg.rxKind = .cmd → ∃ e ∈ cfg.lenTable, e.id = 0x07#8 ∧ e.min = 0#16) := by
  unfold Config.advertOk
  cases cfg.rxKind with
  | rsp => simp
  | cmd =>
    simp only [Option.any_eq_true, beq_iff_eq, forall_const]
    constructor
    · rintro ⟨⟨lo, hi⟩, hl, hz⟩
      exact ⟨⟨0x07#8, lo, hi⟩, lookupLen_mem hl, rfl, hz⟩
    · rintro ⟨e, he, hid, hz⟩
      exact ⟨(e.min, e.max), hid ▸ lookupLen_of_mem hd he, hz⟩

/-- R171 check 5 in terms of the table's entries. -/
theorem Config.errRspOk_iff {cfg : Config} (hd : (cfg.encTable.map EncEntry.code).Nodup) :
    cfg.errRspOk = true ↔ ∀ c, cfg.errRspCode = some c → ⟨c, .fixed 1⟩ ∈ cfg.encTable := by
  unfold Config.errRspOk
  cases cfg.errRspCode <;> simp [lookupEnc_eq_some_iff hd]

section
variable {cfg : Config}

theorem Config.passes_maxFrameRange_iff :
    cfg.passes .maxFrameRange = true ↔ 4 ≤ cfg.maxFrame ∧ cfg.maxFrame ≤ 65538 := by
  simp [Config.passes]

theorem Config.passes_lenDuplicate_iff :
    cfg.passes .lenDuplicate = true ↔ (cfg.lenTable.map LenEntry.id).Nodup := noTwice_iff _

theorem Config.passes_lenInverted_iff :
    cfg.passes .lenInverted = true ↔ ∀ e ∈ cfg.lenTable, e.min.toNat ≤ e.max.toNat := by
  simp [Config.passes]

theorem Config.passes_encDuplicate_iff :
    cfg.passes .encDuplicate = true ↔ (cfg.encTable.map EncEntry.code).Nodup := noTwice_iff _

theorem Config.passes_encModeRange_iff :
    cfg.passes .encModeRange = true ↔
      ∀ e ∈ cfg.encTable, ∀ n, e.mode = .fixed n ∨ e.mode = .selfInfo n → n ≤ cfg.argCap := by
  simp only [Config.passes, List.all_eq_true, EncMode.fits_iff]

theorem Config.passes_encOk_iff (hd : (cfg.encTable.map EncEntry.code).Nodup) :
    cfg.passes .encOk = true ↔ ⟨0x00#8, .fixed 0⟩ ∈ cfg.encTable := by
  simp [Config.passes, lookupEnc_eq_some_iff hd]

end

end Sys2Proof

namespace Sys2Proof.Machine

/-- Settles O57: what a lookup answers is an entry, and without duplicates it answers each one. -/
theorem lookupsAnswerTheEntryAtTheKey : Obligations.LookupsAnswerTheEntryAtTheKey :=
  ⟨fun _ _ hd => ⟨fun _ _ => lookupLen_eq_some_iff hd, lookupLen_none_iff⟩,
    fun _ _ hd => ⟨fun _ => lookupEnc_eq_some_iff hd, lookupEnc_none_iff⟩⟩

/-- Settles O10, check by check; the checks that look a key up (R130 check 5, R171 checks 4 and 5)
speak of entries because the duplicate checks hold beside them. -/
theorem wellFormedConfigurationMeetsEveryCheck :
    Obligations.WellFormedConfigurationMeetsEveryCheck := by
  intro cfg
  rw [Config.wellFormed_iff_passes]
  constructor
  · intro h
    have hlen := Config.passes_lenDuplicate_iff.1 (h .lenDuplicate)
    have henc := Config.passes_encDuplicate_iff.1 (h .encDuplicate)
    exact ⟨Config.passes_maxFrameRange_iff.1 (h .maxFrameRange), hlen,
      Config.passes_lenInverted_iff.1 (h .lenInverted), (Config.advertOk_iff hlen).1 (h .lenAdvert),
      henc, Config.passes_encModeRange_iff.1 (h .encModeRange),
      (Config.passes_encOk_iff henc).1 (h .encOk), (Config.errRspOk_iff henc).1 (h .encErrRsp)⟩
  · rintro ⟨hmax, hlen, hinv, hadvert, henc, hmode, hok, herr⟩ c
    cases c with
    | maxFrameRange => exact Config.passes_maxFrameRange_iff.2 hmax
    | lenDuplicate => exact Config.passes_lenDuplicate_iff.2 hlen
    | lenInverted => exact Config.passes_lenInverted_iff.2 hinv
    | lenAdvert => exact (Config.advertOk_iff hlen).2 hadvert
    | encDuplicate => exact Config.passes_encDuplicate_iff.2 henc
    | encModeRange => exact Config.passes_encModeRange_iff.2 hmode
    | encOk => exact (Config.passes_encOk_iff henc).2 hok
    | encErrRsp => exact (Config.errRspOk_iff henc).2 herr

/-! ### Rows of writes read back (R14, R60) -/

/-- A row of writes that answers leaves the bytes written at its cells. -/
theorem bufWriteList_inside {cfg : Config} {buf : Buf} {m m' : Memory} {start : Nat}
    {vs : List Byte} (he : bufWriteList cfg buf m start vs = .ok m') {i : Nat}
    (hi : i < vs.length) : memRead m' (start + i) = vs[i]? := by
  have hne : vs ≠ [] := List.ne_nil_of_length_pos (by omega)
  obtain ⟨m'', he'', hr, -⟩ := bufWriteList_ok (buf := buf) (m := m) (bufWriteList_fits he hne)
  rw [he] at he''
  cases he''
  exact hr i hi

/-- Settles O41: the cells of the row hold the bytes, and the others are as before. -/
theorem bytesWrittenAreReadBack : Obligations.BytesWrittenAreReadBack :=
  fun _ _ _ _ _ _ he =>
    ⟨bufReadList_ok_iff.2 ⟨rfl, fun _ hi => bufWriteList_inside he hi⟩,
      fun _ hn => bufWriteList_outside he hn⟩

/-! ### The dispatch, and which transactions hold (R18, R19) -/

section
variable (s : State) (b : Byte) (k : FrameKind) (t : Byte) (encLen : Half) (encData : List Byte)

@[simp] theorem exec_rxByte : exec (.rxByte b) s = execRxByte b s := rfl
@[simp] theorem exec_rxClear : exec .rxClear s = execRxClear s := rfl
@[simp] theorem exec_resTake : exec .resTake s = execResTake s := rfl
@[simp] theorem exec_encReq :
    exec (.encReq k t encLen encData) s = execEncReq k t encLen encData s := rfl
@[simp] theorem exec_outTake : exec .outTake s = execOutTake s := rfl
@[simp] theorem exec_reset : exec .reset s = execReset s := rfl

@[simp] theorem holds_rxByte_iff : holds s (.rxByte b) = true ↔ s.blk.res ≠ none := by
  simp [holds, Block.resValid, Option.isSome_iff_ne_none]

@[simp] theorem holds_resTake_iff : holds s .resTake = true ↔ s.blk.res = none := by
  simp [holds]

@[simp] theorem holds_encReq_iff :
    holds s (.encReq k t encLen encData) = true ↔
      encData.length ≤ s.cfg.argCap ∧ s.blk.txTotal ≠ 0 := by
  simp [holds, Instr.wf]

@[simp] theorem holds_outTake_iff : holds s .outTake = true ↔ s.blk.txTotal = 0 := by
  simp [holds]

@[simp] theorem holds_rxClear : holds s .rxClear = false := rfl
@[simp] theorem holds_reset : holds s .reset = false := rfl

end

theorem execRxClear_next_iff {s t : State} :
    execRxClear s = .next t ↔ t = s.finish .rxClear none { s.blk with pos := 0 } := by
  simp [execRxClear, eq_comm]

theorem execReset_next_iff {s t : State} :
    execReset s = .next t ↔ t = s.finish .reset none Block.reset := by
  simp [execReset, eq_comm]

/-- A transaction that holds answers the same state (R18). -/
theorem exec_of_holds {s : State} {i : Instr} (h : holds s i = true) : exec i s = .next s := by
  cases i with
  | rxByte b => exact execRxByte_next_iff.2 (.inl ⟨h, rfl⟩)
  | resTake => exact execResTake_next_iff.2 (.inl ⟨(holds_resTake_iff s).1 h, rfl⟩)
  | encReq k t encLen encData =>
    obtain ⟨hd, hbusy⟩ := (holds_encReq_iff s k t encLen encData).1 h
    exact execEncReq_next_iff.2 ⟨hd, .inl ⟨hbusy, rfl⟩⟩
  | outTake => exact execOutTake_next_iff.2 (.inl ⟨(holds_outTake_iff s).1 h, rfl⟩)
  | rxClear => cases h
  | reset => cases h

/-- Settles O11: the hold table row by row, and `exec_of_holds`. -/
theorem heldTransactionsChangeNothing : Obligations.HeldTransactionsChangeNothing :=
  fun s => ⟨holds_rxByte_iff s, holds_resTake_iff s,
    fun k t encLen encData hd => (holds_encReq_iff s k t encLen encData).trans (and_iff_right hd),
    holds_outTake_iff s, holds_rxClear s, holds_reset s, fun _ => exec_of_holds⟩

/-- A byte that completes a frame leaves its result waiting (R119). -/
theorem RxCase.res_of_last_byte {cfg : Config} {b lo hi : Byte} {blk blk' : Block}
    {ev : Option Event} (h : RxCase cfg b blk blk' ev) (hp : 3 ≤ blk.pos)
    (hl : memRead blk.rxbuf 1 = some lo) (hh : memRead blk.rxbuf 2 = some hi)
    (ht : blk.pos + 1 = totalOf lo hi) : blk'.res ≠ none := by
  cases h with
  | last => simp
  | inside lo' hi' _ _ hl' hh' ht' =>
    cases hl.symm.trans hl'
    cases hh.symm.trans hh'
    omega
  | noise h0 | marker h0 | lowLength h0 | overflow _ h0 | empty _ h0 | highLength _ h0 => omega

/-- After `RES_TAKE` no result waits (R200). -/
theorem execResTake_res {s t : State} (h : execResTake s = .next t) : t.blk.res = none := by
  rcases execResTake_next_iff.1 h with ⟨hn, rfl⟩ | ⟨r, -, rfl⟩
  · exact hn
  · rfl

/-- After the last byte of a frame is taken the TX path is idle (R185). -/
theorem execOutTake_idle_of_last {s t : State} (hlast : s.blk.txIdx + 1 = s.blk.txTotal)
    (h : execOutTake s = .next t) : t.blk.txTotal = 0 := by
  rcases execOutTake_next_iff.1 h with ⟨h0, rfl⟩ | ⟨v, -, -, rfl⟩
  · exact h0
  · simp [outAdvance, hlast]

/-- After a request that fits, held or accepted, a frame is being emitted (R181). -/
theorem execEncReq_busy_of_fits {s t : State} {k : FrameKind} {y : Byte} {encLen : Half}
    {encData : List Byte} (hfit : requestLength s.cfg k y encLen encData ≤ s.cfg.argCap)
    (h : execEncReq k y encLen encData s = .next t) : t.blk.txTotal ≠ 0 := by
  obtain ⟨-, ⟨hbusy, rfl⟩ | ⟨-, blk, ev, hacc, rfl⟩⟩ := execEncReq_next_iff.1 h
  · exact hbusy
  · rcases encAccept_ok_iff.1 hacc with ⟨hlong, -, -⟩ | ⟨-, -, m, -, rfl⟩
    · omega
    · simp

/-- After a byte that completes a frame a result waits (R119). -/
theorem execRxByte_waits_of_last {s t : State} {b lo hi : Byte} (hr : s.blk.res = none)
    (hp : 3 ≤ s.blk.pos) (hl : memRead s.blk.rxbuf 1 = some lo)
    (hh : memRead s.blk.rxbuf 2 = some hi) (ht : s.blk.pos + 1 = totalOf lo hi)
    (h : execRxByte b s = .next t) : t.blk.res ≠ none := by
  rcases execRxByte_next_iff.1 h with ⟨hwait, -⟩ | ⟨-, blk, ev, hcase, rfl⟩
  · simp [Block.resValid, hr] at hwait
  · exact hcase.res_of_last_byte hp hl hh ht

/-- Settles O12: each lifting is the hold table read in the state the transaction answers. -/
theorem holdsAreLifted : Obligations.HoldsAreLifted := by
  refine ⟨fun s t b h => ?_, fun s => ⟨_, rfl, fun b => rfl, fun k y encLen encData => ?_⟩,
    fun s t hlast h k y encLen encData => ?_, fun s t k y encLen encData hfit h => ?_,
    fun s t b lo hi hr hp hl hh ht h => ?_⟩
  · simpa [Bool.eq_false_iff] using execResTake_res h
  · simp [Bool.eq_false_iff, Block.reset]
  · simp [Bool.eq_false_iff, execOutTake_idle_of_last hlast h]
  · simpa [Bool.eq_false_iff] using execEncReq_busy_of_fits hfit h
  · simpa [Bool.eq_false_iff] using execRxByte_waits_of_last hr hp hl hh ht h

/-! ### The fetch and the step (R18, R91) -/

theorem fetch_of_wellFormed {s : State} (h : s.cfg.WellFormed) :
    fetch s = fetchFrom s [] s.pending := by
  unfold fetch
  rw [h]

/-- The fetch takes the request in front of it when that does not hold. -/
theorem fetchFrom_cons_run {s : State} {kept rest : List Tx} {x : Tx} {i : Instr}
    (hx : decode x = .ok i) (hi : holds s i = false) :
    fetchFrom s kept (x :: rest) = .run i (kept ++ rest) := by
  simp [fetchFrom, hx, hi]

theorem step_of_fetch_run {s : State} {i : Instr} {rest : List Tx} (h : fetch s = .run i rest) :
    step s = exec i (s.withPending rest) := by
  unfold step
  rw [h]

theorem step_of_fetch_idle {s : State} (h : fetch s = .idle) : step s = .next s := by
  unfold step
  rw [h]
  rfl

/-- Settles O7: the fetch passes over the held requests and takes the next one. -/
theorem stepRunsThePresentedTransaction : Obligations.StepRunsThePresentedTransaction := by
  intro s ahead rest x i hwf hpending hahead hx hi
  apply step_of_fetch_run
  rw [fetch_of_wellFormed hwf, hpending, fetchFrom_skip hahead, List.nil_append,
    fetchFrom_cons_run hx hi]

/-- Settles O8: the fetch passes over every presented request and finds none. -/
theorem stepIdlesWhenEveryRequestHolds : Obligations.StepIdlesWhenEveryRequestHolds := by
  intro s hwf hall
  apply step_of_fetch_idle
  rw [fetch_of_wellFormed hwf, ← List.append_nil s.pending, fetchFrom_skip hall]
  rfl

/-! ### What a transaction leaves alone (R16, R17) -/

/-- Nothing the RX path owns (R16), nor what the handler received, differs. -/
structure SameRxPath (s t : State) : Prop where
  pos : t.blk.pos = s.blk.pos
  rxbuf : t.blk.rxbuf = s.blk.rxbuf
  res : t.blk.res = s.blk.res
  handed : t.handed = s.handed

/-- Nothing the TX path owns (R16), nor what the sink received, differs. -/
structure SameTxPath (s t : State) : Prop where
  txbuf : t.blk.txbuf = s.blk.txbuf
  txTotal : t.blk.txTotal = s.blk.txTotal
  txIdx : t.blk.txIdx = s.blk.txIdx
  txStatus : t.blk.txStatus = s.blk.txStatus
  emitted : t.emitted = s.emitted

@[refl] theorem SameRxPath.refl (s : State) : SameRxPath s s := ⟨rfl, rfl, rfl, rfl⟩

@[refl] theorem SameTxPath.refl (s : State) : SameTxPath s s := ⟨rfl, rfl, rfl, rfl, rfl⟩

theorem execRxByte_keeps_tx {s t : State} {b : Byte} (h : execRxByte b s = .next t) :
    SameTxPath s t := by
  rcases execRxByte_next_iff.1 h with ⟨-, rfl⟩ | ⟨-, blk, ev, hcase, rfl⟩
  · rfl
  · obtain ⟨hbuf, htotal, hidx, hstatus⟩ := hcase.keeps_tx
    exact ⟨hbuf, htotal, hidx, hstatus, rfl⟩

theorem execRxClear_keeps_tx {s t : State} (h : execRxClear s = .next t) : SameTxPath s t := by
  cases execRxClear_next_iff.1 h
  exact ⟨rfl, rfl, rfl, rfl, rfl⟩

theorem execResTake_keeps_tx {s t : State} (h : execResTake s = .next t) : SameTxPath s t := by
  rcases execResTake_next_iff.1 h with ⟨-, rfl⟩ | ⟨r, -, rfl⟩
  · rfl
  · exact ⟨rfl, rfl, rfl, rfl, rfl⟩

theorem execEncReq_keeps_rx {s t : State} {k : FrameKind} {y : Byte} {encLen : Half}
    {encData : List Byte} (h : execEncReq k y encLen encData s = .next t) : SameRxPath s t := by
  obtain ⟨-, ⟨-, rfl⟩ | ⟨-, blk, ev, hacc, rfl⟩⟩ := execEncReq_next_iff.1 h
  · rfl
  · obtain ⟨hpos, hbuf, hres⟩ := encAccept_keeps_rx hacc
    exact ⟨hpos, hbuf, hres, rfl⟩

theorem outAdvance_keeps_rx (blk : Block) :
    (outAdvance blk).pos = blk.pos ∧ (outAdvance blk).rxbuf = blk.rxbuf ∧
      (outAdvance blk).res = blk.res := by
  unfold outAdvance
  split <;> exact ⟨rfl, rfl, rfl⟩

theorem execOutTake_keeps_rx {s t : State} (h : execOutTake s = .next t) : SameRxPath s t := by
  rcases execOutTake_next_iff.1 h with ⟨-, rfl⟩ | ⟨v, -, -, rfl⟩
  · rfl
  · obtain ⟨hpos, hbuf, hres⟩ := outAdvance_keeps_rx s.blk
    exact ⟨hpos, hbuf, hres, rfl⟩

/-- Settles O48, one frame lemma per transaction. -/
theorem pathsOwnDisjointState : Obligations.PathsOwnDisjointState := by
  intro i s t h
  constructor
  · intro hi
    have hkeep : SameTxPath s t := by
      rcases hi with ⟨b, rfl⟩ | rfl | rfl
      · exact execRxByte_keeps_tx h
      · exact execRxClear_keeps_tx h
      · exact execResTake_keeps_tx h
    exact ⟨hkeep.txbuf, hkeep.txTotal, hkeep.txIdx, hkeep.txStatus, hkeep.emitted⟩
  · intro hi
    have hkeep : SameRxPath s t := by
      rcases hi with ⟨k, y, encLen, encData, rfl⟩ | rfl
      · exact execEncReq_keeps_rx h
      · exact execOutTake_keeps_rx h
    exact ⟨hkeep.pos, hkeep.rxbuf, hkeep.res, hkeep.handed⟩

/-- No transaction writes the configuration (R17) or presents or withdraws a request (R91). -/
theorem exec_keeps_cfg_pending {i : Instr} {s t : State} (h : exec i s = .next t) :
    t.cfg = s.cfg ∧ t.pending = s.pending := by
  cases i with
  | rxByte b =>
    rcases execRxByte_next_iff.1 h with ⟨-, rfl⟩ | ⟨-, blk, ev, -, rfl⟩ <;> exact ⟨rfl, rfl⟩
  | rxClear => cases execRxClear_next_iff.1 h; exact ⟨rfl, rfl⟩
  | resTake => rcases execResTake_next_iff.1 h with ⟨-, rfl⟩ | ⟨r, -, rfl⟩ <;> exact ⟨rfl, rfl⟩
  | encReq k y encLen encData =>
    obtain ⟨-, ⟨-, rfl⟩ | ⟨-, blk, ev, -, rfl⟩⟩ := execEncReq_next_iff.1 h <;> exact ⟨rfl, rfl⟩
  | outTake =>
    rcases execOutTake_next_iff.1 h with ⟨-, rfl⟩ | ⟨v, -, -, rfl⟩ <;> exact ⟨rfl, rfl⟩
  | reset => cases execReset_next_iff.1 h; exact ⟨rfl, rfl⟩

theorem exec_cfg {i : Instr} {s t : State} (h : exec i s = .next t) : t.cfg = s.cfg :=
  (exec_keeps_cfg_pending h).1

theorem exec_pending {i : Instr} {s t : State} (h : exec i s = .next t) : t.pending = s.pending :=
  (exec_keeps_cfg_pending h).2

/-- Settles O46: a step idles or runs one transaction, and no transaction writes it. -/
theorem configurationNeverChanges : Obligations.ConfigurationNeverChanges := by
  intro s t h
  rcases step_next h with rfl | ⟨i, rest, -, -, hexec⟩
  · rfl
  · simpa using exec_cfg hexec

/-- The sink receives nothing from an `ENC_REQ`. -/
theorem execEncReq_emitted {s t : State} {k : FrameKind} {y : Byte} {encLen : Half}
    {encData : List Byte} (h : execEncReq k y encLen encData s = .next t) :
    t.emitted = s.emitted := by
  obtain ⟨-, ⟨-, rfl⟩ | ⟨-, blk, ev, -, rfl⟩⟩ := execEncReq_next_iff.1 h <;> rfl

/-- Cells of `txbuf` past the requested frame stay (R180). -/
theorem execEncReq_txbuf_outside {s t : State} {k : FrameKind} {y : Byte} {encLen : Half}
    {encData : List Byte} (h : execEncReq k y encLen encData s = .next t) {n : Nat}
    (hn : 4 + requestLength s.cfg k y encLen encData ≤ n) :
    memRead t.blk.txbuf n = memRead s.blk.txbuf n := by
  obtain ⟨-, ⟨-, rfl⟩ | ⟨-, blk, ev, hacc, rfl⟩⟩ := execEncReq_next_iff.1 h
  · rfl
  · rcases encAccept_ok_iff.1 hacc with ⟨-, rfl, -⟩ | ⟨hfit, -, m, hw, rfl⟩
    · rfl
    · exact bufWriteList_outside hw (.inr (by rw [requestFrame_length hfit]; omega))

/-- A request that finds a frame being emitted holds (R170). -/
theorem execEncReq_of_busy {s t : State} {k : FrameKind} {y : Byte} {encLen : Half}
    {encData : List Byte} (h : execEncReq k y encLen encData s = .next t)
    (hbusy : s.blk.txTotal ≠ 0) : t = s := by
  obtain ⟨-, ⟨-, rfl⟩ | ⟨hidle, -⟩⟩ := execEncReq_next_iff.1 h
  · rfl
  · exact absurd hidle hbusy

/-- A request that is too long writes `tx_status` alone on the TX path (R178). -/
theorem execEncReq_of_tooLong {s t : State} {k : FrameKind} {y : Byte} {encLen : Half}
    {encData : List Byte} (h : execEncReq k y encLen encData s = .next t)
    (hlong : s.cfg.argCap < requestLength s.cfg k y encLen encData) :
    t.blk.txbuf = s.blk.txbuf ∧ t.blk.txTotal = s.blk.txTotal ∧ t.blk.txIdx = s.blk.txIdx := by
  obtain ⟨-, ⟨-, rfl⟩ | ⟨-, blk, ev, hacc, rfl⟩⟩ := execEncReq_next_iff.1 h
  · exact ⟨rfl, rfl, rfl⟩
  · rcases encAccept_ok_iff.1 hacc with ⟨-, rfl, -⟩ | ⟨hfit, -, -⟩
    · exact ⟨rfl, rfl, rfl⟩
    · omega

/-- Settles O31 from the lemmas about what an answered `ENC_REQ` leaves alone. -/
theorem encReqFrame : Obligations.EncReqFrame := by
  intro s u k t encLen encData h
  have hrx := execEncReq_keeps_rx h
  exact ⟨exec_cfg h, exec_pending h, hrx.handed, execEncReq_emitted h, hrx.pos, hrx.rxbuf, hrx.res,
    fun _ => execEncReq_txbuf_outside h, execEncReq_of_busy h, execEncReq_of_tooLong h⟩

/-! ### No model fault under the invariant (R15, R121, R184, R232) -/

/-- Presenting or withdrawing requests keeps the invariant: it speaks of the block alone. -/
theorem State.Inv.withPending {s : State} (h : s.Inv) (ts : List Tx) : (s.withPending ts).Inv :=
  ⟨h.config, h.rx, h.tx⟩

/-- Under the RX half a byte is held or has its case. -/
theorem State.Inv.execRxByte_answers {s : State} (h : s.Inv) (b : Byte) :
    ∃ t, execRxByte b s = .next t := by
  cases hr : s.blk.res with
  | some r => exact ⟨s, execRxByte_next_iff.2 (.inl ⟨by simp [Block.resValid, hr], rfl⟩)⟩
  | none =>
    obtain ⟨blk, ev, hcase⟩ := h.rx.case h.config.four_le b
    exact ⟨_, execRxByte_of_case hr hcase⟩

/-- An accepted request is too long or its frame fits the buffer (R180). -/
theorem encAccept_answers {cfg : Config} (h4 : 4 ≤ cfg.maxFrame) (k : FrameKind) (t : Byte)
    (encLen : Half) (encData : List Byte) (blk : Block) :
    ∃ blk' ev, encAccept cfg k t encLen encData blk = .ok (blk', ev) := by
  rcases Nat.lt_or_ge cfg.argCap (requestLength cfg k t encLen encData) with hlong | hfit
  · exact ⟨_, _, encAccept_ok_iff.2 (.inl ⟨hlong, rfl, rfl⟩)⟩
  · have hroom : 0 + (requestFrame cfg k t encLen encData).length ≤ cfg.maxFrame := by
      rw [requestFrame_length hfit]
      simp only [Config.argCap] at hfit
      omega
    obtain ⟨m, hw, -⟩ := bufWriteList_ok (buf := .tx) (m := blk.txbuf) hroom
    exact ⟨_, _, encAccept_ok_iff.2 (.inr ⟨hfit, rfl, m, hw, rfl⟩)⟩

/-- Under the invariant a well-formed request is held or accepted. -/
theorem State.Inv.execEncReq_answers {s : State} (h : s.Inv) (k : FrameKind) (t : Byte)
    (encLen : Half) {encData : List Byte} (hd : encData.length ≤ s.cfg.argCap) :
    ∃ u, execEncReq k t encLen encData s = .next u := by
  by_cases hidle : s.blk.txTotal = 0
  · obtain ⟨blk, ev, hacc⟩ := encAccept_answers h.config.four_le k t encLen encData s.blk
    exact ⟨_, execEncReq_next_iff.2 ⟨hd, .inr ⟨hidle, blk, ev, hacc, rfl⟩⟩⟩
  · exact ⟨s, execEncReq_next_iff.2 ⟨hd, .inl ⟨hidle, rfl⟩⟩⟩

/-- Under the TX half the byte to take is inside the frame and written (R184). -/
theorem State.Inv.execOutTake_answers {s : State} (h : s.Inv) : ∃ t, execOutTake s = .next t := by
  by_cases hidle : s.blk.txTotal = 0
  · exact ⟨s, execOutTake_next_iff.2 (.inl ⟨hidle, rfl⟩)⟩
  · have hidx := h.tx.index hidle
    obtain ⟨v, hv⟩ := Option.isSome_iff_exists.1 (h.tx.written _ hidx)
    exact ⟨_, execOutTake_next_iff.2 (.inr ⟨v, hidx, hv, rfl⟩)⟩

theorem execResTake_answers (s : State) : ∃ t, execResTake s = .next t := by
  cases hr : s.blk.res with
  | none => exact ⟨s, execResTake_next_iff.2 (.inl ⟨hr, rfl⟩)⟩
  | some r => exact ⟨_, execResTake_next_iff.2 (.inr ⟨r, hr, rfl⟩)⟩

/-- Under the invariant every well-formed transaction answers a next state. -/
theorem State.Inv.exec_answers {s : State} (h : s.Inv) {i : Instr}
    (hi : i.wf s.cfg.argCap = true) : ∃ t, exec i s = .next t := by
  cases i with
  | rxByte b => exact h.execRxByte_answers b
  | rxClear => exact ⟨_, rfl⟩
  | resTake => exact execResTake_answers s
  | encReq k t encLen encData =>
    exact h.execEncReq_answers k t encLen (by simpa [Instr.wf] using hi)
  | outTake => exact h.execOutTake_answers
  | reset => exact ⟨_, rfl⟩

/-- A malformed transaction is refused, in every state (R93). -/
theorem exec_of_not_wf {s : State} {i : Instr} (hi : i.wf s.cfg.argCap = false) :
    exec i s = .refused .encDataTooLong := by
  cases i with
  | encReq k t encLen encData => simp [execEncReq, hi]
  | rxByte | rxClear | resTake | outTake | reset => cases hi

/-- Under the invariant no transaction faults: it answers or is refused. -/
theorem State.Inv.exec_ne_fault {s : State} (h : s.Inv) (i : Instr) (f : Fault) :
    exec i s ≠ .fault f := by
  cases hi : i.wf s.cfg.argCap with
  | true =>
    obtain ⟨t, ht⟩ := h.exec_answers hi
    simp [ht]
  | false => simp [exec_of_not_wf hi]

/-- Settles O45: a step that faults would run a transaction that faults, in a state of the invariant
again. -/
theorem noModelFaultUnderTheInvariant : Obligations.NoModelFaultUnderTheInvariant := by
  intro s h
  refine ⟨h.exec_ne_fault, fun f hf => ?_⟩
  obtain ⟨i, rest, -, -, hexec⟩ := step_fault hf
  exact (h.withPending rest).exec_ne_fault i f hexec

end Sys2Proof.Machine

/-! ## State (spec/10_state.md): position, the frame of a byte, `STATUS`, pins, reset values -/

namespace Sys2Proof.Machine

/-! ### `RX_BYTE`: the position and the frame (R31, R32, R42, R121) -/

section
variable {cfg : Config} {b : Byte} {blk blk' : Block} {ev : Option Event}

/-- Every accepted byte moves `pos` on by one, returns it to 0 or leaves it there (R42). -/
theorem RxCase.pos_advances_or_returns (h : RxCase cfg b blk blk' ev) :
    blk'.pos = blk.pos + 1 ∨ blk'.pos = 0 := by
  cases h with
  | noise hp => exact .inr hp
  | marker hp | lowLength hp | highLength _ hp => left; simp [hp]
  | overflow | empty | last => exact .inr rfl
  | inside => exact .inl rfl

/-- An accepted byte leaves `pos` inside the buffer: a frame that goes on fits, because its length
field was checked when it was read (R116, R121). -/
theorem RxCase.pos_lt_maxFrame (h : RxCase cfg b blk blk' ev) (hrx : RxSound cfg blk)
    (h4 : 4 ≤ cfg.maxFrame) : blk'.pos < cfg.maxFrame := by
  cases h with
  | noise hp => omega
  | marker | lowLength | overflow | empty | highLength | last => dsimp only; omega
  | inside lo hi hp _ hl hh ht =>
    obtain ⟨lo', hi', hl', hh', -, -, hfits⟩ := hrx.frame hp
    obtain rfl : lo = lo' := Option.some.inj (hl.symm.trans hl')
    obtain rfl : hi = hi' := Option.some.inj (hh.symm.trans hh')
    exact Nat.lt_of_lt_of_le ht hfits

/-- An accepted byte is noise and changes nothing, or it is stored at `pos`. -/
theorem RxCase.unchanged_or_stored (h : RxCase cfg b blk blk' ev) :
    blk' = blk ∨ blk'.rxbuf = memWrite blk.rxbuf blk.pos b := by
  cases h with
  | noise => exact .inl rfl
  | marker hp | lowLength hp | overflow _ hp | empty _ hp | highLength _ hp => right; simp [hp]
  | inside | last => exact .inr rfl

/-- Every cell of `rxbuf` but the one at `pos` stays (R32). -/
theorem RxCase.rxbuf_outside (h : RxCase cfg b blk blk' ev) {n : Nat} (hn : n ≠ blk.pos) :
    memRead blk'.rxbuf n = memRead blk.rxbuf n := by
  rcases h.unchanged_or_stored with rfl | hstored
  · rfl
  · rw [hstored, memRead_memWrite_ne _ _ hn]

/-- In Searching any byte but the marker is noise (R113). -/
theorem RxCase.eq_of_noise (h : RxCase cfg b blk blk' ev) (hp : blk.pos = 0)
    (hb : b ≠ cfg.rxMarker) : blk' = blk := by
  cases h with
  | noise => rfl
  | marker _ hmarker => exact absurd hmarker hb
  | lowLength h | overflow _ h | empty _ h | highLength _ h => omega
  | inside _ _ h | last _ _ _ _ h => omega

end

/-- Settles O19 from the two facts about the cases of an accepted byte. -/
theorem positionAdvancesByOneOrReturns : Obligations.PositionAdvancesByOneOrReturns := by
  intro s t b hinv hr h
  rcases execRxByte_next_iff.1 h with ⟨hwaits, -⟩ | ⟨-, blk, ev, hcase, rfl⟩
  · simp [Block.resValid, hr] at hwaits
  · exact ⟨hcase.pos_advances_or_returns,
      Nat.le_sub_one_of_lt (hcase.pos_lt_maxFrame hinv.rx hinv.config.four_le)⟩

/-- The handler receives nothing from an `RX_BYTE`. -/
theorem execRxByte_handed {s t : State} {b : Byte} (h : execRxByte b s = .next t) :
    t.handed = s.handed := by
  rcases execRxByte_next_iff.1 h with ⟨-, rfl⟩ | ⟨-, blk, ev, -, rfl⟩ <;> rfl

theorem execRxByte_rxbuf_outside {s t : State} {b : Byte} (h : execRxByte b s = .next t) {n : Nat}
    (hn : n ≠ s.blk.pos) : memRead t.blk.rxbuf n = memRead s.blk.rxbuf n := by
  rcases execRxByte_next_iff.1 h with ⟨-, rfl⟩ | ⟨-, blk, ev, hcase, rfl⟩
  · rfl
  · exact hcase.rxbuf_outside hn

/-- A byte that holds (R19) or is noise (R113) changes no state element. -/
theorem execRxByte_blk_of_held_or_noise {s t : State} {b : Byte} (h : execRxByte b s = .next t)
    (hkeep : s.blk.res ≠ none ∨ (s.blk.pos = 0 ∧ b ≠ s.cfg.rxMarker)) : t.blk = s.blk := by
  rcases execRxByte_next_iff.1 h with ⟨-, rfl⟩ | ⟨hr, blk, ev, hcase, rfl⟩
  · rfl
  · obtain ⟨hp, hb⟩ := hkeep.resolve_left (absurd hr)
    exact hcase.eq_of_noise hp hb

/-- Settles O20 from the lemmas about what an answered `RX_BYTE` leaves alone. -/
theorem rxByteFrame : Obligations.RxByteFrame := by
  intro s t b h
  have htx := execRxByte_keeps_tx h
  exact ⟨exec_cfg h, exec_pending h, execRxByte_handed h, htx.emitted, htx.txbuf, htx.txTotal,
    htx.txIdx, htx.txStatus, fun _ => execRxByte_rxbuf_outside h,
    execRxByte_blk_of_held_or_noise h⟩

/-! ### The `STATUS` word (R44) -/

theorem FrameKind.bit_eq_ofBool (k : FrameKind) :
    FrameKind.bit k = BitVec.ofBool (decide (k = .rsp)) := by
  cases k <;> rfl

theorem EncStatus.bit_eq_ofBool (e : EncStatus) :
    e.bit = BitVec.ofBool (decide (e = .tooLong)) := by
  cases e <;> rfl

/-- The layout of R44: bits 7:4 reserved 0, then one bit per flag. -/
def flagWord (kind tooLong busy waits : Bool) : Byte :=
  (0 : BitVec 4) ++ BitVec.ofBool kind ++ BitVec.ofBool tooLong ++ BitVec.ofBool busy ++
    BitVec.ofBool waits

theorem State.status_eq_flagWord (s : State) :
    s.status = flagWord (decide (s.cfg.rxKind = .rsp)) (decide (s.blk.txStatus = .tooLong))
      (decide (s.blk.txTotal ≠ 0)) s.blk.res.isSome := by
  have hbusy : s.blk.txBusy = decide (s.blk.txTotal ≠ 0) := by
    rw [Bool.eq_iff_iff, txBusy_iff, decide_eq_true_iff]
  rw [flagWord, ← FrameKind.bit_eq_ofBool, ← EncStatus.bit_eq_ofBool, ← hbusy]
  rfl

theorem flagWord_low_bits : ∀ kind tooLong busy waits : Bool,
    (flagWord kind tooLong busy waits).getLsbD 0 = waits ∧
    (flagWord kind tooLong busy waits).getLsbD 1 = busy ∧
    (flagWord kind tooLong busy waits).getLsbD 2 = tooLong ∧
    (flagWord kind tooLong busy waits).getLsbD 3 = kind := by
  decide

theorem flagWord_lt : ∀ kind tooLong busy waits : Bool,
    (flagWord kind tooLong busy waits).toNat < 2 ^ 4 := by
  decide

theorem flagWord_high_bits (kind tooLong busy waits : Bool) {n : Nat} (hn : 4 ≤ n) :
    (flagWord kind tooLong busy waits).getLsbD n = false :=
  Nat.testBit_lt_two_pow (Nat.lt_of_lt_of_le (flagWord_lt kind tooLong busy waits)
    (Nat.pow_le_pow_right (by decide) hn))

/-- After reset the only bit that can be set is the kind's. -/
theorem State.status_resetFor (cfg : Config) :
    (State.resetFor cfg).status = match cfg.rxKind with | .cmd => 0x00#8 | .rsp => 0x08#8 := by
  have hrest : (State.resetFor cfg).status =
      flagWord (decide (cfg.rxKind = .rsp)) false false false :=
    State.status_eq_flagWord _
  rw [hrest]
  cases cfg.rxKind <;> decide

/-- Settles O38 by the layout of `flagWord`. -/
theorem statusWordShowsTheFlags : Obligations.StatusWordShowsTheFlags := by
  refine ⟨fun s => ?_, State.status_resetFor⟩
  rw [State.status_eq_flagWord]
  obtain ⟨hwaits, hbusy, htooLong, hkind⟩ := flagWord_low_bits (decide (s.cfg.rxKind = .rsp))
    (decide (s.blk.txStatus = .tooLong)) (decide (s.blk.txTotal ≠ 0)) s.blk.res.isSome
  exact ⟨hwaits, hbusy, htooLong, hkind, fun _ => flagWord_high_bits _ _ _ _,
    fun _ => State.status_eq_flagWord _⟩

/-! ### The output pins (R38 to R40) -/

@[simp] theorem encReady_iff (b : Block) : b.encReady = true ↔ b.txTotal = 0 := by
  simp [Block.encReady]

theorem inReady_iff (b : Block) (clear : Bool) :
    b.inReady clear = true ↔ b.res = none ∧ clear = false := by
  simp [Block.inReady]

theorem outLast_iff (b : Block) :
    b.outLast = true ↔ b.txTotal ≠ 0 ∧ b.txIdx = b.txTotal - 1 := by
  simp [Block.outLast]

/-- The byte on the output pins: the cell `tx_idx` while busy, 0 while idle. -/
theorem outData_ok {b : Block} {v : Byte}
    (hv : b.txTotal ≠ 0 → memRead b.txbuf b.txIdx = some v) :
    b.outData = .ok (if b.txTotal ≠ 0 then v else 0x00#8) := by
  unfold Block.outData
  rw [outValid_eq_txBusy]
  by_cases hidle : b.txTotal = 0
  · rw [if_neg (by simp [hidle]), if_neg (not_not_intro hidle)]
  · rw [if_pos ((txBusy_iff b).2 hidle), if_pos hidle, bufRead_of_memRead (hv hidle)]

/-- The pins of a state whose output byte is readable. -/
theorem portOutputs_of_outData {s : State} {v : Byte} (hv : s.blk.outData = .ok v) (clear : Bool) :
    portOutputs s clear = .ok
      { inReady := s.blk.inReady clear, resValid := s.blk.resValid
        bus := resultBus s.cfg s.blk.res, encReady := s.blk.encReady
        txStatus := s.blk.txStatus.bit, outValid := s.blk.outValid, outData := v
        outLast := s.blk.outLast, status := s.status } := by
  unfold portOutputs
  rw [hv]

/-- Settles O39: the pins are those of `portOutputs_of_outData`, one lemma per signal. -/
theorem portSignalsFollowTheState : Obligations.PortSignalsFollowTheState := by
  intro s clear v hv
  refine ⟨_, portOutputs_of_outData (outData_ok hv) clear, inReady_iff _ _, ?_, encReady_iff _,
    txBusy_iff _, rfl, outLast_iff _, rfl, ?_, rfl⟩
  · exact Option.isSome_iff_ne_none
  · cases s.blk.txStatus <;> rfl

/-! ### The values after reset (R48, R250) -/

theorem padTo_nil (n : Nat) : padTo n [] = List.replicate n 0x00#8 := by
  induction n with
  | zero => rfl
  | succ n ih => rw [padTo, ih, List.replicate_succ]

/-- Settles O40: after reset the TX path is idle, so every pin is readable and at rest, and `RESET`
(R204) writes the same block. -/
theorem resetLeavesTheSpecsValues : Obligations.ResetLeavesTheSpecsValues := by
  intro cfg
  have hpins := portOutputs_of_outData (s := State.resetFor cfg) (v := 0) rfl false
  refine ⟨_, hpins, rfl, fun _ => rfl, rfl, fun _ => rfl, rfl, rfl, rfl, rfl, rfl, rfl, rfl, rfl,
    ?_, rfl, ?_⟩
  · simp [Block.reset, resultBus, padTo_nil]
  · intro s t h
    cases execReset_next_iff.1 h
    exact ⟨rfl, rfl⟩

end Sys2Proof.Machine

/-! ## Memory (spec/20_memory.md): canonical buffers, idempotence, the two paths, stale cells -/

namespace Sys2Proof.Machine

/-! ### The canonical form of the buffers (R32, R34, R60) -/

theorem execRxByte_rxbuf_wf {s t : State} {b : Byte} (h : execRxByte b s = .next t)
    (hwf : s.blk.rxbuf.wf) : t.blk.rxbuf.wf := by
  rcases execRxByte_next_iff.1 h with ⟨-, rfl⟩ | ⟨-, blk, ev, hcase, rfl⟩
  · exact hwf
  · rcases hcase.unchanged_or_stored with rfl | hstored
    · exact hwf
    · rw [State.finish_blk, hstored]
      exact memWrite_wf _ _ hwf

theorem execEncReq_txbuf_wf {s t : State} {k : FrameKind} {y : Byte} {encLen : Half}
    {encData : List Byte} (h : execEncReq k y encLen encData s = .next t)
    (hwf : s.blk.txbuf.wf) : t.blk.txbuf.wf := by
  obtain ⟨-, ⟨-, rfl⟩ | ⟨-, blk, ev, hacc, rfl⟩⟩ := execEncReq_next_iff.1 h
  · exact hwf
  · rcases encAccept_ok_iff.1 hacc with ⟨-, rfl, -⟩ | ⟨-, -, m, hw, rfl⟩
    · exact hwf
    · exact bufWriteList_wf hw hwf

theorem execRxClear_rxbuf {s t : State} (h : execRxClear s = .next t) :
    t.blk.rxbuf = s.blk.rxbuf := by
  cases execRxClear_next_iff.1 h
  rfl

theorem execResTake_rxbuf {s t : State} (h : execResTake s = .next t) :
    t.blk.rxbuf = s.blk.rxbuf := by
  rcases execResTake_next_iff.1 h with ⟨-, rfl⟩ | ⟨r, -, rfl⟩ <;> rfl

theorem outAdvance_txbuf (blk : Block) : (outAdvance blk).txbuf = blk.txbuf := by
  unfold outAdvance
  split <;> rfl

theorem execOutTake_txbuf {s t : State} (h : execOutTake s = .next t) :
    t.blk.txbuf = s.blk.txbuf := by
  rcases execOutTake_next_iff.1 h with ⟨-, rfl⟩ | ⟨v, -, -, rfl⟩
  · rfl
  · exact outAdvance_txbuf s.blk

/-- Only `RX_BYTE` and `RESET` write `rxbuf`, and both keep its form. -/
theorem exec_rxbuf_wf {i : Instr} {s t : State} (h : exec i s = .next t) (hwf : s.blk.rxbuf.wf) :
    t.blk.rxbuf.wf := by
  cases i with
  | rxByte b => exact execRxByte_rxbuf_wf h hwf
  | rxClear => rwa [execRxClear_rxbuf h]
  | resTake => rwa [execResTake_rxbuf h]
  | encReq k y encLen encData => rwa [(execEncReq_keeps_rx h).rxbuf]
  | outTake => rwa [(execOutTake_keeps_rx h).rxbuf]
  | reset => cases execReset_next_iff.1 h; exact (reset_buffers_wf s.cfg).1

/-- Only `ENC_REQ` and `RESET` write `txbuf`, and both keep its form. -/
theorem exec_txbuf_wf {i : Instr} {s t : State} (h : exec i s = .next t) (hwf : s.blk.txbuf.wf) :
    t.blk.txbuf.wf := by
  cases i with
  | rxByte b => rwa [(execRxByte_keeps_tx h).txbuf]
  | rxClear => rwa [(execRxClear_keeps_tx h).txbuf]
  | resTake => rwa [(execResTake_keeps_tx h).txbuf]
  | encReq k y encLen encData => exact execEncReq_txbuf_wf h hwf
  | outTake => rwa [execOutTake_txbuf h]
  | reset => cases execReset_next_iff.1 h; exact (reset_buffers_wf s.cfg).2

/-- Settles O42: a step idles or runs one transaction, and every transaction keeps both forms. -/
theorem stepKeepsBuffersCanonical : Obligations.StepKeepsBuffersCanonical := by
  intro s t hrx htx h
  rcases step_next h with rfl | ⟨i, rest, -, -, hexec⟩
  · exact ⟨hrx, htx⟩
  · exact ⟨exec_rxbuf_wf hexec hrx, exec_txbuf_wf hexec htx⟩

/-! ### `RX_CLEAR` and `RESET` twice (R67) -/

/-- Settles O36: both write constants, so the second application writes what stands there. -/
theorem clearAndResetAreIdempotent : Obligations.ClearAndResetAreIdempotent := by
  rintro i s t u (rfl | rfl) ht hu
  · cases execRxClear_next_iff.1 ht
    cases execRxClear_next_iff.1 hu
    rfl
  · cases execReset_next_iff.1 ht
    cases execReset_next_iff.1 hu
    rfl

/-! ### The two paths commute (R16, R71) -/

/-- The RX path's fields of one block beside the TX path's fields of another (R16). -/
def Block.withTx (rx tx : Block) : Block :=
  { rx with
    txbuf := tx.txbuf, txTotal := tx.txTotal, txIdx := tx.txIdx, txStatus := tx.txStatus }

theorem SameRxPath.blk_eq {s t : State} (h : SameRxPath s t) : t.blk = s.blk.withTx t.blk := by
  rw [Block.withTx, ← h.pos, ← h.rxbuf, ← h.res]

theorem SameTxPath.blk_eq {s t : State} (h : SameTxPath s t) : t.blk = t.blk.withTx s.blk := by
  rw [Block.withTx, ← h.txbuf, ← h.txTotal, ← h.txIdx, ← h.txStatus]

/-- An accepted byte has the same case whatever the TX path holds. -/
theorem RxCase.withTx {cfg : Config} {b : Byte} {blk blk' : Block} {ev : Option Event}
    (h : RxCase cfg b blk blk' ev) (tx : Block) :
    RxCase cfg b (blk.withTx tx) (blk'.withTx tx) ev := by
  cases h with
  | noise hp hb => exact .noise hp hb
  | marker hp hb hm => exact .marker hp hb hm
  | lowLength hp hm => exact .lowLength hp hm
  | overflow lo hp hm hl ht => exact .overflow lo hp hm hl ht
  | empty lo hp hm hl ht hz => exact .empty lo hp hm hl ht hz
  | highLength lo hp hm hl ht hz => exact .highLength lo hp hm hl ht hz
  | inside lo hi hp hm hl hh ht => exact .inside lo hi hp hm hl hh ht
  | last lo hi t args hp hm hl hh ht htype hlen hargs =>
    exact .last lo hi t args hp hm hl hh ht htype hlen hargs

/-- An accepted request does the same whatever the RX path holds. -/
theorem encAccept_withTx {cfg : Config} {k : FrameKind} {t : Byte} {encLen : Half}
    {encData : List Byte} {blk blk' : Block} {ev : Option Event}
    (h : encAccept cfg k t encLen encData blk = .ok (blk', ev)) (rx : Block) :
    encAccept cfg k t encLen encData (rx.withTx blk) = .ok (rx.withTx blk', ev) := by
  rcases encAccept_ok_iff.1 h with ⟨hlong, rfl, rfl⟩ | ⟨hfit, rfl, m, hw, rfl⟩
  · exact encAccept_ok_iff.2 (.inl ⟨hlong, rfl, rfl⟩)
  · exact encAccept_ok_iff.2 (.inr ⟨hfit, rfl, m, hw, rfl⟩)

theorem outAdvance_withTx (rx blk : Block) :
    outAdvance (rx.withTx blk) = rx.withTx (outAdvance blk) := by
  by_cases hlast : blk.txIdx + 1 = blk.txTotal <;> simp [outAdvance, Block.withTx, hlast]

/-- The RX path's transactions (R16). -/
def OnRxPath (i : Instr) : Prop := (∃ b, i = .rxByte b) ∨ i = .rxClear ∨ i = .resTake

/-- The TX path's transactions (R16). -/
def OnTxPath (i : Instr) : Prop :=
  (∃ k t encLen encData, i = .encReq k t encLen encData) ∨ i = .outTake

theorem OnRxPath.keeps_tx {i : Instr} {s t : State} (hi : OnRxPath i) (h : exec i s = .next t) :
    SameTxPath s t := by
  obtain ⟨hbuf, htotal, hidx, hstatus, hemitted⟩ := (pathsOwnDisjointState i s t h).1 hi
  exact ⟨hbuf, htotal, hidx, hstatus, hemitted⟩

theorem OnTxPath.keeps_rx {i : Instr} {s t : State} (hi : OnTxPath i) (h : exec i s = .next t) :
    SameRxPath s t := by
  obtain ⟨hpos, hbuf, hres, hhanded⟩ := (pathsOwnDisjointState i s t h).2 hi
  exact ⟨hpos, hbuf, hres, hhanded⟩

/-- What an RX-path transaction does to its path depends on that path and the configuration
alone. -/
theorem OnRxPath.same_of_same {i : Instr} {s s' t : State} (hi : OnRxPath i)
    (hs : SameRxPath s s') (hcfg : s'.cfg = s.cfg) (h : exec i s = .next t) :
    ∃ t', exec i s' = .next t' ∧ SameRxPath t t' := by
  rcases hi with ⟨b, rfl⟩ | rfl | rfl
  · rcases execRxByte_next_iff.1 h with ⟨hwaits, rfl⟩ | ⟨hr, blk, ev, hcase, rfl⟩
    · exact ⟨s', execRxByte_next_iff.2 (.inl ⟨by rwa [Block.resValid, hs.res], rfl⟩), hs⟩
    · have hcase' : RxCase s'.cfg b s'.blk (blk.withTx s'.blk) ev := by
        rw [hcfg, hs.blk_eq]
        exact hcase.withTx s'.blk
      exact ⟨_, execRxByte_of_case (hs.res.trans hr) hcase', rfl, rfl, rfl, hs.handed⟩
  · cases execRxClear_next_iff.1 h
    exact ⟨_, rfl, rfl, hs.rxbuf, hs.res, hs.handed⟩
  · rcases execResTake_next_iff.1 h with ⟨hn, rfl⟩ | ⟨r, hr, rfl⟩
    · exact ⟨s', execResTake_next_iff.2 (.inl ⟨hs.res.trans hn, rfl⟩), hs⟩
    · refine ⟨_, execResTake_next_iff.2 (.inr ⟨r, hs.res.trans hr, rfl⟩), hs.pos, hs.rxbuf, rfl, ?_⟩
      simp [hs.handed]

/-- What a TX-path transaction does to its path depends on that path and the configuration
alone. -/
theorem OnTxPath.same_of_same {i : Instr} {s s' t : State} (hi : OnTxPath i)
    (hs : SameTxPath s s') (hcfg : s'.cfg = s.cfg) (h : exec i s = .next t) :
    ∃ t', exec i s' = .next t' ∧ SameTxPath t t' := by
  rcases hi with ⟨k, y, encLen, encData, rfl⟩ | rfl
  · obtain ⟨hd, ⟨hbusy, rfl⟩ | ⟨hidle, blk, ev, hacc, rfl⟩⟩ := execEncReq_next_iff.1 h
    · exact ⟨s', execEncReq_next_iff.2 ⟨hcfg ▸ hd, .inl ⟨hs.txTotal ▸ hbusy, rfl⟩⟩, hs⟩
    · have hacc' : encAccept s'.cfg k y encLen encData s'.blk = .ok (s'.blk.withTx blk, ev) := by
        rw [hcfg, hs.blk_eq]
        exact encAccept_withTx hacc s'.blk
      exact ⟨_, execEncReq_next_iff.2
          ⟨hcfg ▸ hd, .inr ⟨hs.txTotal.trans hidle, _, ev, hacc', rfl⟩⟩,
        rfl, rfl, rfl, rfl, hs.emitted⟩
  · rcases execOutTake_next_iff.1 h with ⟨hidle, rfl⟩ | ⟨v, hidx, hv, rfl⟩
    · exact ⟨s', execOutTake_next_iff.2 (.inl ⟨hs.txTotal.trans hidle, rfl⟩), hs⟩
    · have hblk : outAdvance s'.blk = s'.blk.withTx (outAdvance s.blk) := by
        rw [← outAdvance_withTx, ← hs.blk_eq]
      refine ⟨_, execOutTake_next_iff.2 (.inr ⟨v, ?_, ?_, rfl⟩), ?_⟩
      · rwa [hs.txIdx, hs.txTotal]
      · rwa [hs.txbuf, hs.txIdx]
      · rw [hblk]
        refine ⟨rfl, rfl, rfl, rfl, ?_⟩
        simp [hs.emitted, Block.outLast, Block.outValid, Block.txBusy, hs.txIdx, hs.txTotal]

/-- Settles O47: each transaction keeps the other's path, so the other does there what it does
alone; both orders end in the RX path of `si` beside the TX path of `sj`. -/
theorem rxAndTxTransactionsCommute : Obligations.RxAndTxTransactionsCommute := by
  intro i j s si sj hi hj hsi hsj
  have hrx : OnRxPath i := hi
  have htx : OnTxPath j := hj
  obtain ⟨u, hu, hutx⟩ := htx.same_of_same (hrx.keeps_tx hsi) (exec_cfg hsi) hsj
  obtain ⟨v, hv, hvrx⟩ := hrx.same_of_same (htx.keeps_rx hsj) (exec_cfg hsj) hsi
  have hurx := htx.keeps_rx hu
  have hvtx := hrx.keeps_tx hv
  have hblk : u.blk = v.blk := by
    rw [hurx.blk_eq, hutx.blk_eq, hvtx.blk_eq, hvrx.blk_eq]
    rfl
  exact ⟨u, v, hu, hv, hblk, hurx.handed.trans hvrx.handed.symm,
    hutx.emitted.trans hvtx.emitted.symm,
    ((exec_cfg hu).trans (exec_cfg hsi)).trans ((exec_cfg hv).trans (exec_cfg hsj)).symm,
    ((exec_pending hu).trans (exec_pending hsi)).trans
      ((exec_pending hv).trans (exec_pending hsj)).symm⟩

/-! ### Stale cells (R75) -/

/-- Two blocks whose RX paths differ at most in cells of `rxbuf` from `pos` on. -/
structure SameRxLive (a c : Block) : Prop where
  pos : c.pos = a.pos
  rxbuf : ∀ n, n < a.pos → memRead c.rxbuf n = memRead a.rxbuf n
  res : c.res = a.res

/-- Two blocks whose TX paths differ at most in cells of `txbuf` from `tx_total` on. -/
structure SameTxLive (a c : Block) : Prop where
  txbuf : ∀ n, n < a.txTotal → memRead c.txbuf n = memRead a.txbuf n
  txTotal : c.txTotal = a.txTotal
  txIdx : c.txIdx = a.txIdx
  txStatus : c.txStatus = a.txStatus

theorem SameRxLive.refl (a : Block) : SameRxLive a a := ⟨rfl, fun _ _ => rfl, rfl⟩

theorem SameTxLive.refl (a : Block) : SameTxLive a a := ⟨fun _ _ => rfl, rfl, rfl, rfl⟩

/-- The relation depends on the RX path's fields alone. -/
theorem SameRxLive.of_fields {a a' c c' : Block} (h : SameRxLive a c)
    (ha : a'.pos = a.pos ∧ a'.rxbuf = a.rxbuf ∧ a'.res = a.res)
    (hc : c'.pos = c.pos ∧ c'.rxbuf = c.rxbuf ∧ c'.res = c.res) : SameRxLive a' c' := by
  obtain ⟨hap, hab, har⟩ := ha
  obtain ⟨hcp, hcb, hcr⟩ := hc
  constructor
  · rw [hcp, hap, h.pos]
  · rw [hcb, hab, hap]
    exact h.rxbuf
  · rw [hcr, har, h.res]

/-- The relation depends on the TX path's fields alone. -/
theorem SameTxLive.of_fields {a a' c c' : Block} (h : SameTxLive a c)
    (ha : a'.txbuf = a.txbuf ∧ a'.txTotal = a.txTotal ∧ a'.txIdx = a.txIdx ∧
      a'.txStatus = a.txStatus)
    (hc : c'.txbuf = c.txbuf ∧ c'.txTotal = c.txTotal ∧ c'.txIdx = c.txIdx ∧
      c'.txStatus = c.txStatus) : SameTxLive a' c' := by
  obtain ⟨hab, hat, hai, has⟩ := ha
  obtain ⟨hcb, hct, hci, hcs⟩ := hc
  constructor
  · rw [hcb, hab, hat]
    exact h.txbuf
  · rw [hct, hat, h.txTotal]
  · rw [hci, hai, h.txIdx]
  · rw [hcs, has, h.txStatus]

section
variable {a c : Block}

/-- Once the byte at `pos` is stored, the cells up to and with `pos` agree. -/
theorem SameRxLive.memRead_stored (h : SameRxLive a c) (b : Byte) {n : Nat} (hn : n ≤ a.pos) :
    memRead (memWrite c.rxbuf c.pos b) n = memRead (memWrite a.rxbuf a.pos b) n := by
  rw [h.pos, memRead_memWrite, memRead_memWrite]
  split
  · rfl
  · exact h.rxbuf n (by omega)

/-- A byte stored at `pos` makes one more cell agree, so `pos` may move on by one. -/
theorem SameRxLive.store (h : SameRxLive a c) (b : Byte) {p next : Nat} (hp : a.pos = p)
    (hn : next ≤ p + 1) :
    SameRxLive { a with rxbuf := memWrite a.rxbuf p b, pos := next }
      { c with rxbuf := memWrite c.rxbuf p b, pos := next } := by
  subst hp
  refine ⟨rfl, fun n (hlt : n < next) => ?_, h.res⟩
  simpa [h.pos] using h.memRead_stored b (n := n) (by omega)

theorem SameRxLive.deliver (h : SameRxLive a c) (r : Result) :
    SameRxLive (deliver r a) (deliver r c) := ⟨h.pos, h.rxbuf, rfl⟩

end

/-- An accepted byte reads cells below `pos` and the one it stores, so it has the same case in
blocks that differ in stale cells alone. -/
theorem RxCase.of_sameRxLive {cfg : Config} {b : Byte} {a a' c : Block} {ev : Option Event}
    (h : RxCase cfg b a a' ev) (hs : SameRxLive a c) :
    ∃ c', RxCase cfg b c c' ev ∧ SameRxLive a' c' := by
  have hread {n : Nat} {v : Byte} (hn : n < a.pos) (hv : memRead a.rxbuf n = some v) :
      memRead c.rxbuf n = some v := (hs.rxbuf n hn).trans hv
  have hpos := hs.pos
  cases h with
  | noise hp hb => exact ⟨c, .noise (hpos.trans hp) hb, hs⟩
  | marker hp hb hm => exact ⟨_, .marker (hpos.trans hp) hb hm, hs.store b hp (by omega)⟩
  | lowLength hp hm => exact ⟨_, .lowLength (hpos.trans hp) hm, hs.store b hp (by omega)⟩
  | overflow lo hp hm hl ht =>
    exact ⟨_, .overflow lo (hpos.trans hp) hm (hread (by omega) hl) ht, hs.store b hp (by omega)⟩
  | empty lo hp hm hl ht hz =>
    exact ⟨_, .empty lo (hpos.trans hp) hm (hread (by omega) hl) ht hz, hs.store b hp (by omega)⟩
  | highLength lo hp hm hl ht hz =>
    exact ⟨_, .highLength lo (hpos.trans hp) hm (hread (by omega) hl) ht hz,
      hs.store b hp (by omega)⟩
  | inside lo hi hp hm hl hh ht =>
    refine ⟨_, .inside lo hi (by omega) (by omega) (hread (by omega) hl) (hread (by omega) hh)
      (by omega), ?_⟩
    rw [hpos]
    exact hs.store b rfl (Nat.le_refl _)
  | last lo hi t args hp hm hl hh ht htype hlen hargs =>
    refine ⟨_, .last lo hi t args (by omega) (by omega) (hread (by omega) hl)
      (hread (by omega) hh) (by omega) ?_ hlen fun n hn => ?_, ?_⟩
    · rw [hs.memRead_stored b hp, htype]
    · rw [hs.memRead_stored b (by omega), hargs n hn]
    · rw [hpos]
      exact (hs.store b rfl (Nat.zero_le _)).deliver _

/-- Two buffers that took the same row of writes from cell 0 on agree on the row. -/
theorem bufWriteList_agree {cfg : Config} {buf : Buf} {m m' p p' : Memory} {vs : List Byte}
    (hm : bufWriteList cfg buf m 0 vs = .ok m') (hp : bufWriteList cfg buf p 0 vs = .ok p') {n : Nat}
    (hn : n < vs.length) : memRead p' n = memRead m' n := by
  have h1 := bufWriteList_inside hm hn
  have h2 := bufWriteList_inside hp hn
  rw [Nat.zero_add] at h1 h2
  rw [h1, h2]

/-- Whether a row of writes answers does not depend on what the buffer holds. -/
theorem bufWriteList_answers_of_answers {cfg : Config} {buf : Buf} {m m' : Memory} {start : Nat}
    {vs : List Byte} (h : bufWriteList cfg buf m start vs = .ok m') (p : Memory) :
    ∃ p', bufWriteList cfg buf p start vs = .ok p' := by
  by_cases hne : vs = []
  · subst hne
    exact ⟨p, rfl⟩
  · obtain ⟨p', hp', -⟩ := bufWriteList_ok (buf := buf) (m := p) (bufWriteList_fits h hne)
    exact ⟨p', hp'⟩

/-- An accepted request reads no cell of `txbuf` and writes every cell of its frame. -/
theorem encAccept_of_sameTxLive {cfg : Config} {k : FrameKind} {t : Byte} {encLen : Half}
    {encData : List Byte} {a a' c : Block} {ev : Option Event}
    (h : encAccept cfg k t encLen encData a = .ok (a', ev)) (hs : SameTxLive a c) :
    ∃ c', encAccept cfg k t encLen encData c = .ok (c', ev) ∧ SameTxLive a' c' := by
  rcases encAccept_ok_iff.1 h with ⟨hlong, rfl, rfl⟩ | ⟨hfit, rfl, m, hm, rfl⟩
  · exact ⟨_, encAccept_ok_iff.2 (.inl ⟨hlong, rfl, rfl⟩), hs.txbuf, hs.txTotal, hs.txIdx, rfl⟩
  · obtain ⟨p, hp⟩ := bufWriteList_answers_of_answers hm c.txbuf
    refine ⟨_, encAccept_ok_iff.2 (.inr ⟨hfit, rfl, p, hp, rfl⟩), fun n hn => ?_, rfl, rfl, rfl⟩
    exact bufWriteList_agree hm hp (by rwa [requestFrame_length hfit])

theorem SameTxLive.outAdvance {a c : Block} (h : SameTxLive a c) :
    SameTxLive (outAdvance a) (outAdvance c) := by
  unfold Machine.outAdvance
  rw [h.txIdx, h.txTotal]
  split
  · exact ⟨fun n hn => absurd hn (Nat.not_lt_zero n), rfl, rfl, h.txStatus⟩
  · exact ⟨h.txbuf, rfl, rfl, h.txStatus⟩

theorem SameTxLive.outLast {a c : Block} (h : SameTxLive a c) : c.outLast = a.outLast := by
  simp [Block.outLast, Block.outValid, Block.txBusy, h.txTotal, h.txIdx]

section
variable {s t : State}

theorem SameUpToStale.rx (h : SameUpToStale s t) : SameRxLive s.blk t.blk :=
  ⟨h.pos, h.rxbuf, h.res⟩

theorem SameUpToStale.tx (h : SameUpToStale s t) : SameTxLive s.blk t.blk :=
  ⟨h.txbuf, h.txTotal, h.txIdx, h.txStatus⟩

/-- A transaction that completes with the same event in blocks that differ in stale cells alone. -/
theorem SameUpToStale.finish (h : SameUpToStale s t) {a c : Block} (hrx : SameRxLive a c)
    (htx : SameTxLive a c) (i : Instr) (ev : Option Event) :
    SameUpToStale (s.finish i ev a) (t.finish i ev c) :=
  ⟨h.cfg, hrx.pos, hrx.rxbuf, hrx.res, htx.txbuf, htx.txTotal, htx.txIdx, htx.txStatus, h.pending,
    h.handed, h.emitted, by simp [h.trace]⟩

theorem SameUpToStale.hand (h : SameUpToStale s t) (r : Result) :
    SameUpToStale (s.hand r) (t.hand r) :=
  { h with handed := by simp [h.handed] }

theorem SameUpToStale.emit (h : SameUpToStale s t) (v : Byte) (last : Bool) :
    SameUpToStale (s.emit v last) (t.emit v last) :=
  { h with emitted := by simp [h.emitted] }

theorem SameUpToStale.execRxByte {u : State} (h : SameUpToStale s t) {b : Byte}
    (hu : execRxByte b s = .next u) : ∃ v, execRxByte b t = .next v ∧ SameUpToStale u v := by
  rcases execRxByte_next_iff.1 hu with ⟨hwaits, rfl⟩ | ⟨hr, a, ev, hcase, rfl⟩
  · exact ⟨t, execRxByte_next_iff.2 (.inl ⟨by rwa [Block.resValid, h.res], rfl⟩), h⟩
  · obtain ⟨c, hcase', hrx⟩ := hcase.of_sameRxLive h.rx
    exact ⟨_, execRxByte_of_case (h.res.trans hr) (h.cfg ▸ hcase'),
      h.finish hrx (h.tx.of_fields hcase.keeps_tx hcase'.keeps_tx) _ _⟩

theorem SameUpToStale.execResTake {u : State} (h : SameUpToStale s t)
    (hu : execResTake s = .next u) : ∃ v, execResTake t = .next v ∧ SameUpToStale u v := by
  rcases execResTake_next_iff.1 hu with ⟨hn, rfl⟩ | ⟨r, hr, rfl⟩
  · exact ⟨t, execResTake_next_iff.2 (.inl ⟨h.res.trans hn, rfl⟩), h⟩
  · have hrx : SameRxLive { s.blk with res := none } { t.blk with res := none } :=
      ⟨h.pos, h.rxbuf, rfl⟩
    have htx : SameTxLive { s.blk with res := none } { t.blk with res := none } :=
      h.tx.of_fields ⟨rfl, rfl, rfl, rfl⟩ ⟨rfl, rfl, rfl, rfl⟩
    exact ⟨_, execResTake_next_iff.2 (.inr ⟨r, h.res.trans hr, rfl⟩), (h.hand r).finish hrx htx _ _⟩

theorem SameUpToStale.execRxClear {u : State} (h : SameUpToStale s t)
    (hu : execRxClear s = .next u) : ∃ v, execRxClear t = .next v ∧ SameUpToStale u v := by
  cases execRxClear_next_iff.1 hu
  have hrx : SameRxLive { s.blk with pos := 0 } { t.blk with pos := 0 } :=
    ⟨rfl, fun n hn => absurd hn (Nat.not_lt_zero n), h.res⟩
  have htx : SameTxLive { s.blk with pos := 0 } { t.blk with pos := 0 } :=
    h.tx.of_fields ⟨rfl, rfl, rfl, rfl⟩ ⟨rfl, rfl, rfl, rfl⟩
  exact ⟨_, rfl, h.finish hrx htx _ _⟩

theorem SameUpToStale.execEncReq {u : State} (h : SameUpToStale s t) {k : FrameKind} {y : Byte}
    {encLen : Half} {encData : List Byte} (hu : execEncReq k y encLen encData s = .next u) :
    ∃ v, execEncReq k y encLen encData t = .next v ∧ SameUpToStale u v := by
  obtain ⟨hd, ⟨hbusy, rfl⟩ | ⟨hidle, a, ev, hacc, rfl⟩⟩ := execEncReq_next_iff.1 hu
  · exact ⟨t, execEncReq_next_iff.2 ⟨h.cfg ▸ hd, .inl ⟨h.txTotal ▸ hbusy, rfl⟩⟩, h⟩
  · obtain ⟨c, hacc', htx⟩ := encAccept_of_sameTxLive hacc h.tx
    rw [← h.cfg] at hd hacc'
    exact ⟨_, execEncReq_next_iff.2 ⟨hd, .inr ⟨h.txTotal.trans hidle, c, ev, hacc', rfl⟩⟩,
      h.finish (h.rx.of_fields (encAccept_keeps_rx hacc) (encAccept_keeps_rx hacc')) htx _ _⟩

theorem SameUpToStale.execOutTake {u : State} (h : SameUpToStale s t)
    (hu : execOutTake s = .next u) : ∃ v, execOutTake t = .next v ∧ SameUpToStale u v := by
  rcases execOutTake_next_iff.1 hu with ⟨hidle, rfl⟩ | ⟨w, hidx, hw, rfl⟩
  · exact ⟨t, execOutTake_next_iff.2 (.inl ⟨h.txTotal.trans hidle, rfl⟩), h⟩
  · refine ⟨_, execOutTake_next_iff.2 (.inr ⟨w, ?_, ?_, rfl⟩), ?_⟩
    · rwa [h.txIdx, h.txTotal]
    · rw [h.txIdx, h.txbuf _ hidx, hw]
    · rw [h.tx.outLast]
      exact (h.emit w _).finish
        (h.rx.of_fields (outAdvance_keeps_rx s.blk) (outAdvance_keeps_rx t.blk)) h.tx.outAdvance _ _

/-- One transaction keeps the difference to stale cells alone (R75). -/
theorem SameUpToStale.exec {u : State} (h : SameUpToStale s t) {i : Instr}
    (hu : exec i s = .next u) : ∃ v, exec i t = .next v ∧ SameUpToStale u v := by
  cases i with
  | rxByte b => exact h.execRxByte hu
  | rxClear => exact h.execRxClear hu
  | resTake => exact h.execResTake hu
  | encReq k y encLen encData => exact h.execEncReq hu
  | outTake => exact h.execOutTake hu
  | reset =>
    cases execReset_next_iff.1 hu
    exact ⟨_, rfl, h.finish (.refl _) (.refl _) _ _⟩

/-- While a frame is emitted `tx_idx` is below `tx_total` (R184), so the byte on the pins is no
stale cell. -/
theorem SameUpToStale.outData (h : SameUpToStale s t) (hinv : s.Inv) :
    t.blk.outData = s.blk.outData := by
  unfold Block.outData Block.outValid Block.txBusy
  rw [h.txTotal, h.txIdx]
  by_cases hidle : s.blk.txTotal = 0
  · simp [hidle]
  · simp [bufRead, h.txbuf _ (hinv.tx.index hidle)]

theorem SameUpToStale.status (h : SameUpToStale s t) : t.status = s.status := by
  rw [State.status_eq_flagWord, State.status_eq_flagWord, h.cfg, h.txStatus, h.txTotal, h.res]

theorem SameUpToStale.portOutputs (h : SameUpToStale s t) (hinv : s.Inv) (clear : Bool) :
    portOutputs t clear = portOutputs s clear := by
  unfold Machine.portOutputs
  rw [h.outData hinv, h.tx.outLast, h.status, h.cfg, h.res, h.txStatus]
  simp [Block.inReady, Block.resValid, Block.encReady, Block.txBusy, h.res, h.txTotal]

end

/-- Settles O58: transaction by transaction for the first half, pin by pin for the second. -/
theorem staleCellsReachNoPort : Obligations.StaleCellsReachNoPort :=
  ⟨fun _ _ _ _ h hu => h.exec hu, fun _ _ clear hinv h => h.portOutputs hinv clear⟩

end Sys2Proof.Machine

/-! ## Encoding (spec/30_encoding.md): transaction words, the result bus, written forms, feed and
send, the clock edge -/

namespace Sys2Proof

/-! ### The fields of an encoded word (R92) -/

section
variable (v : Half) (b : Byte)

/-- A byte put into a word's low half leaves every field from bit 8 on alone. -/
theorem extractLsb'_or_byte {start : Nat} (hs : 8 ≤ start) (len : Nat) :
    (v ||| b.setWidth 16).extractLsb' start len = v.extractLsb' start len := by
  apply BitVec.eq_of_getLsbD_eq
  intro n _
  have hb : b.getLsbD (start + n) = false := BitVec.getLsbD_of_ge b _ (by omega)
  simp [hb]

@[simp] theorem opField_or_byte : opField (v ||| b.setWidth 16) = opField v :=
  extractLsb'_or_byte v b (by decide) 4

@[simp] theorem zField_or_byte : zField (v ||| b.setWidth 16) = zField v :=
  extractLsb'_or_byte v b (by decide) 3

@[simp] theorem kField_or_byte : kField (v ||| b.setWidth 16) = kField v :=
  extractLsb'_or_byte v b (by decide) 1

theorem bField_or_byte (hv : bField v = 0) : bField (v ||| b.setWidth 16) = b := by
  have hlow : bField (v ||| b.setWidth 16) = bField v ||| b := by
    apply BitVec.eq_of_getLsbD_eq
    intro n hn
    simp [bField, hn, Nat.lt_of_lt_of_le hn (by decide : 8 ≤ 16)]
  rw [hlow, hv]
  exact BitVec.zero_or

end

@[simp] theorem bField_encodeWord_rxByte (b : Byte) : bField (encodeWord (.rxByte b)) = b :=
  bField_or_byte _ b (by decide)

section
variable (k : FrameKind) (t : Byte) (encLen : Half) (encData : List Byte)

@[simp] theorem bField_encodeWord_encReq :
    bField (encodeWord (.encReq k t encLen encData)) = t :=
  bField_or_byte _ t (by cases k <;> decide)

@[simp] theorem kindOfBit_kField_encodeWord_encReq :
    kindOfBit (kField (encodeWord (.encReq k t encLen encData))) = k := by
  rw [encodeWord, kField_or_byte]
  cases k <;> decide

end

/-- R93's field rules hold for every encoded word. -/
theorem encodeWord_fields (i : Instr) :
    opField (encodeWord i) ≠ 0 ∧ (opField (encodeWord i)).toNat < 7 ∧ zField (encodeWord i) = 0 ∧
    (opField (encodeWord i) ≠ 4 → kField (encodeWord i) = 0) ∧
    (opField (encodeWord i) ≠ 1 → opField (encodeWord i) ≠ 4 → bField (encodeWord i) = 0) := by
  cases i with
  | rxByte b =>
    simp only [encodeWord, opField_or_byte, zField_or_byte, kField_or_byte]
    exact ⟨by decide, by decide, by decide, by decide, fun h => absurd (by decide) h⟩
  | encReq k t encLen encData =>
    have hop : opField (0x4000#16 ||| kindBits k) = 4 := by cases k <;> decide
    have hz : zField (0x4000#16 ||| kindBits k) = 0 := by cases k <;> decide
    simp only [encodeWord, opField_or_byte, zField_or_byte, kField_or_byte, hop, hz]
    exact ⟨by decide, by decide, trivial, fun h => absurd rfl h, fun _ h => absurd rfl h⟩
  | rxClear | resTake | outTake | reset => decide

@[simp] theorem encode_word (i : Instr) : (encode i).word = encodeWord i := by cases i <;> rfl

/-! ### What the decoder answers (R94) -/

/-- The transaction with its operands read from a presented form (R92, R97). -/
def Instr.readFrom (x : Tx) : Instr → Instr
  | .rxByte _ => .rxByte (bField x.word)
  | .encReq _ _ _ _ => .encReq (kindOfBit (kField x.word)) (bField x.word) x.encLen x.encData
  | i => i

/-- A word that hits a transaction's row decodes to that transaction with the form's operands: the
rows before it in the map cannot be hit too. -/
theorem decode_of_hits {x : Tx} {i : Instr} (hit : (Laws.EncodedRow.row i).hits x.word = true) :
    decode x = .ok (i.readFrom x) := by
  cases i with
  | rxByte b =>
    have hh : rowRxByte.hits x.word = true := hit
    simp [decode, Instr.readFrom, hh]
  | rxClear =>
    have hh : rowRxClear.hits x.word = true := hit
    simp [decode, Instr.readFrom, hh, not_hits_both (q := rowRxByte) (by decide) hh]
  | resTake =>
    have hh : rowResTake.hits x.word = true := hit
    simp [decode, Instr.readFrom, hh, not_hits_both (q := rowRxByte) (by decide) hh,
      not_hits_both (q := rowRxClear) (by decide) hh]
  | encReq k t encLen encData =>
    have hh : rowEncReq.hits x.word = true := hit
    simp [decode, Instr.readFrom, hh, not_hits_both (q := rowRxByte) (by decide) hh,
      not_hits_both (q := rowRxClear) (by decide) hh,
      not_hits_both (q := rowResTake) (by decide) hh]
  | outTake =>
    have hh : rowOutTake.hits x.word = true := hit
    simp [decode, Instr.readFrom, hh, not_hits_both (q := rowRxByte) (by decide) hh,
      not_hits_both (q := rowRxClear) (by decide) hh,
      not_hits_both (q := rowResTake) (by decide) hh,
      not_hits_both (q := rowEncReq) (by decide) hh]
  | reset =>
    have hh : rowReset.hits x.word = true := hit
    simp [decode, Instr.readFrom, hh, not_hits_both (q := rowRxByte) (by decide) hh,
      not_hits_both (q := rowRxClear) (by decide) hh,
      not_hits_both (q := rowResTake) (by decide) hh,
      not_hits_both (q := rowEncReq) (by decide) hh,
      not_hits_both (q := rowOutTake) (by decide) hh]

theorem not_hits_iff (r : OpRow) (w : Half) : r.hits w = false ↔ w &&& r.mask ≠ r.bits := by
  rw [Bool.eq_false_iff, ne_eq, hits_iff]

theorem decode_of_no_hit {x : Tx} (h : ∀ r ∈ opRows, r.hits x.word = false) :
    decode x = .error (rejectName x.word) := by
  simp only [opRows, List.forall_mem_cons] at h
  obtain ⟨h1, h2, h3, h4, h5, h6, -⟩ := h
  simp [decode, h1, h2, h3, h4, h5, h6]

/-- No bit of an accepted word is dropped: the row's fixed bits and the fields read from the others
make the word. -/
theorem encodeWord_of_decode {x : Tx} {i : Instr} (h : decode x = .ok i) :
    encodeWord i = x.word := by
  rcases decode_ok h with ⟨hh, rfl⟩ | ⟨hh, rfl⟩ | ⟨hh, rfl⟩ | ⟨hh, rfl⟩ | ⟨hh, rfl⟩ | ⟨hh, rfl⟩
  · have hbits : x.word &&& 0xFF00#16 = 0x1000#16 := (hits_iff _ _).1 hh
    rw [encodeWord, bField_setWidth, ← hbits]
    exact and_or_and (by decide) x.word
  · exact ((hits_full_iff _ _).1 hh).symm
  · exact ((hits_full_iff _ _).1 hh).symm
  · have hbits : x.word &&& 0xFE00#16 = 0x4000#16 := (hits_iff _ _).1 hh
    rw [encodeWord, bField_setWidth, kindBits_kField, ← hbits, ← BitVec.and_or_distrib_left]
    exact and_or_and (by decide) x.word
  · exact ((hits_full_iff _ _).1 hh).symm
  · exact ((hits_full_iff _ _).1 hh).symm

/-- The encoded form gives every operand back. -/
theorem readFrom_encode (i : Instr) : i.readFrom (encode i) = i := by
  cases i with
  | rxByte b => simp [Instr.readFrom]
  | encReq k t encLen encData => simp [Instr.readFrom, encode]
  | rxClear | resTake | outTake | reset => rfl

theorem encodeWord_hits_row (i : Instr) : (Laws.EncodedRow.row i).hits (encodeWord i) = true := by
  cases i with
  | rxByte b => exact (Laws.EncodedRow.rxByte b).1
  | rxClear => exact Laws.EncodedRow.rxClear.1
  | resTake => exact Laws.EncodedRow.resTake.1
  | encReq k t encLen encData => exact (Laws.EncodedRow.encReq k t encLen encData).1
  | outTake => exact Laws.EncodedRow.outTake.1
  | reset => exact Laws.EncodedRow.reset.1

/-- Settles O2: the encoded word hits its own row, and the row's operands are read back. -/
theorem decodeOfEncodeIsTheTransaction : Obligations.DecodeOfEncodeIsTheTransaction := by
  intro i
  rw [decode_of_hits ((encode_word i).symm ▸ encodeWord_hits_row i), readFrom_encode]

/-- Settles O5 by `encodeWord_of_decode`: the encoder's word is `encodeWord`. -/
theorem decodedTransactionEncodesToItsWord : Obligations.DecodedTransactionEncodesToItsWord :=
  fun _ i h => (encode_word i).trans (encodeWord_of_decode h)

/-- Settles O3: each row by `decode_of_hits`, the refusal by `decode_of_no_hit`. -/
theorem decoderFollowsTheOpcodeMap : Obligations.DecoderFollowsTheOpcodeMap := by
  intro x
  have hrow (i : Instr)
      (h : x.word &&& (Laws.EncodedRow.row i).mask = (Laws.EncodedRow.row i).bits) :
      decode x = .ok (i.readFrom x) := decode_of_hits ((hits_iff _ _).2 h)
  refine ⟨hrow (.rxByte 0), hrow .rxClear, hrow .resTake, hrow (.encReq .cmd 0 0 []),
    hrow .outTake, hrow .reset, fun h1 h2 h3 h4 h5 h6 => ⟨_, decode_of_no_hit ?_⟩⟩
  simp only [opRows, List.forall_mem_cons, not_hits_iff]
  exact ⟨h1, h2, h3, h4, h5, h6, fun _ h => nomatch h⟩

/-- Settles O4: a decoded word is the word of a transaction, whose fields keep R93's rules, and
overlong request data is malformed. -/
theorem reservedAndMalformedAreRefused : Obligations.ReservedAndMalformedAreRefused := by
  constructor
  · intro x hbad
    cases hd : decode x with
    | error e => exact ⟨e, rfl⟩
    | ok i =>
      exfalso
      obtain ⟨hop, hlt, hz, hk, hb⟩ := encodeWord_fields i
      rw [encodeWord_of_decode hd] at hop hlt hz hk hb
      rcases hbad with h | h | h | ⟨h, h4⟩ | ⟨h, h1, h4⟩
      · exact hop h
      · exact Nat.not_le.2 hlt h
      · exact h hz
      · exact h (hk h4)
      · exact h (hb h1 h4)
  · intro k t encLen encData s hlong
    exact Machine.exec_of_not_wf (by simpa [Instr.wf] using hlong)

/-- Settles O1: the accepted words run the decoder, the refused ones hit no row. -/
theorem wordsOfTheSpecDecode : Obligations.WordsOfTheSpecDecode := by
  refine ⟨rfl, rfl, rfl, rfl, rfl, rfl, rfl, rfl, fun w hw => ⟨_, decode_of_no_hit ?_⟩⟩
  revert w
  decide

end Sys2Proof

namespace Sys2Proof.Machine

/-! ### The written form (R99 to R101) -/

/-- Settles O6: the reader runs on each line. -/
theorem writtenFormsAssemble : Obligations.WrittenFormsAssemble := by
  unfold Obligations.WrittenFormsAssemble
  decide

/-! ### The result bus (R95, R96) -/

/-- The argument cells of an `OK` result: the bytes below `n`, zero from `n` on. -/
theorem padTo_take_getElem? {cap n m : Nat} {a : List Byte} (hn : n ≤ a.length) (hm : m < cap) :
    (padTo cap (a.take n))[m]? = if m < n then a[m]? else some 0x00#8 := by
  split
  · rw [padTo_getElem?_inside hm (by rw [List.length_take]; omega), List.getElem?_take_of_lt ‹_›]
  · rw [padTo_getElem?_beyond hm (by rw [List.length_take]; omega)]

/-- Settles O25: the forms without arguments pad the empty list, `OK` pads its arguments below
`n`. -/
theorem resultBusShowsTheResult : Obligations.ResultBusShowsTheResult := by
  intro cfg
  simp only [resultBus, padTo_nil, zext16]
  exact ⟨rfl, fun _ _ => rfl, fun _ _ _ _ => rfl, fun t n a hn =>
    ⟨_, rfl, padTo_length _ _, fun m hm => padTo_take_getElem? hn (Nat.lt_succ_of_le hm)⟩⟩

/-! ### One clock edge (R91, R208) -/

theorem mem_onlyIf {c : Bool} {i j : Instr} : i ∈ onlyIf c j ↔ c = true ∧ i = j := by
  cases c <;> simp [onlyIf]

/-- The transactions of a cycle without reset: each handshake whose `valid` and `ready` are 1, and
the clear. -/
theorem mem_transfers_iff {p : Pins} {s : State} {i : Instr} (hrst : p.rst = false) :
    i ∈ transfers p s ↔
      (p.rxClear = true ∧ i = .rxClear) ∨
      (p.resReady = true ∧ s.blk.res ≠ none ∧ i = .resTake) ∨
      (p.inValid = true ∧ s.blk.res = none ∧ p.rxClear = false ∧ i = .rxByte p.inData) ∨
      (p.encValid = true ∧ s.blk.txTotal = 0 ∧
        i = .encReq p.encKind p.encType p.encLen p.encData) ∨
      (p.outReady = true ∧ s.blk.txTotal ≠ 0 ∧ i = .outTake) := by
  have hres : s.blk.resValid = true ↔ s.blk.res ≠ none := Option.isSome_iff_ne_none
  simp only [transfers, hrst, Bool.false_eq_true, if_false, rxTransfers, txTransfers,
    List.mem_append, mem_onlyIf, Bool.and_eq_true, hres, inReady_iff, encReady_iff,
    outValid_eq_txBusy, txBusy_iff, and_assoc, or_assoc]

section
variable {p : Pins} {s : State} (hrst : p.rst = false)
include hrst

theorem rxClear_mem_transfers_iff : .rxClear ∈ transfers p s ↔ p.rxClear = true := by
  simp [mem_transfers_iff hrst]

theorem rxByte_mem_transfers_iff {b : Byte} :
    .rxByte b ∈ transfers p s ↔
      p.inValid = true ∧ s.blk.res = none ∧ p.rxClear = false ∧ b = p.inData := by
  simp [mem_transfers_iff hrst]

theorem resTake_mem_transfers_iff :
    .resTake ∈ transfers p s ↔ p.resReady = true ∧ s.blk.res ≠ none := by
  simp [mem_transfers_iff hrst]

theorem encReq_mem_transfers_iff {k : FrameKind} {t : Byte} {encLen : Half}
    {encData : List Byte} :
    .encReq k t encLen encData ∈ transfers p s ↔
      p.encValid = true ∧ s.blk.txTotal = 0 ∧ k = p.encKind ∧ t = p.encType ∧
        encLen = p.encLen ∧ encData = p.encData := by
  simp [mem_transfers_iff hrst]

theorem outTake_mem_transfers_iff :
    .outTake ∈ transfers p s ↔ p.outReady = true ∧ s.blk.txTotal ≠ 0 := by
  simp [mem_transfers_iff hrst]

/-- No transaction of a cycle holds (R91): its `ready` is 1. -/
theorem holds_of_mem_transfers {i : Instr} (hi : i ∈ transfers p s) :
    holds s i = false ∧ i ≠ .reset := by
  rcases (mem_transfers_iff hrst).1 hi with ⟨-, rfl⟩ | ⟨-, hres, rfl⟩ | ⟨-, hres, -, rfl⟩ |
    ⟨-, hidle, rfl⟩ | ⟨-, hbusy, rfl⟩ <;> simp [Bool.eq_false_iff, *]

end

theorem execAll_singleton (i : Instr) (s : State) : execAll [i] s = exec i s := by
  unfold execAll
  cases exec i s <;> rfl

theorem clockEdge_of_wellFormed {p : Pins} {s : State} (h : s.cfg.WellFormed) :
    clockEdge p s = execAll (transfers p s) s := by
  unfold clockEdge
  rw [h]

/-- Settles O56: each clause reads off when its transactions are among those of the cycle. The
exclusions follow, since `RX_BYTE` needs `rx_clear` 0 and no result waiting, `RES_TAKE` a result
waiting, `ENC_REQ` an idle TX path and `OUT_TAKE` a busy one. -/
theorem clockEdgeIsASequenceOfTransactions : Obligations.ClockEdgeIsASequenceOfTransactions := by
  intro p s hwf
  rw [clockEdge_of_wellFormed hwf]
  refine ⟨fun hrst => ?_, fun hrst => ⟨rfl, fun _ => holds_of_mem_transfers hrst,
      fun hclear => ⟨(rxClear_mem_transfers_iff hrst).2 hclear, fun b hb => ?_⟩,
      fun b hb htake => ?_, fun k t encLen encData hreq hout => ?_⟩,
    fun hrst => ⟨rxClear_mem_transfers_iff hrst, fun _ => rxByte_mem_transfers_iff hrst,
      resTake_mem_transfers_iff hrst, fun _ _ _ _ => encReq_mem_transfers_iff hrst,
      outTake_mem_transfers_iff hrst⟩⟩
  · rw [transfers, if_pos hrst, execAll_singleton]
  · obtain ⟨-, -, hnoClear, -⟩ := (rxByte_mem_transfers_iff hrst).1 hb
    exact Bool.false_ne_true (hnoClear.symm.trans hclear)
  · obtain ⟨-, hnone, -⟩ := (rxByte_mem_transfers_iff hrst).1 hb
    exact ((resTake_mem_transfers_iff hrst).1 htake).2 hnone
  · obtain ⟨-, hidle, -⟩ := (encReq_mem_transfers_iff hrst).1 hreq
    exact ((outTake_mem_transfers_iff hrst).1 hout).2 hidle

/-! ### `feed` (R100, R122, R206) -/

/-- What `feed` does for one byte: the byte, and the take of a result it leaves waiting (R100). -/
def feedByte (b : Byte) (s : State) : Outcome := andThen (exec (.rxByte b) s) takeIfWaiting

theorem feed_nil (s : State) : feed [] s = .next (s, []) := rfl

/-- A byte that is taken leads to the rest of the chunk. -/
theorem feed_cons_of_next {b : Byte} {bs : List Byte} {s t : State} (hr : s.blk.res = none)
    (h : feedByte b s = .next t) : feed (b :: bs) s = feed bs t := by
  have hbyte : andThen (exec (.rxByte b) s) takeIfWaiting = .next t := h
  simp only [feed, Block.resValid, hr, Option.isSome_none, Bool.false_eq_true, if_false, hbyte]

/-- A chunk taken whole has its first byte taken, and then the rest. -/
theorem feed_cons_taken {b : Byte} {bs : List Byte} {s u : State}
    (h : feed (b :: bs) s = .next (u, [])) :
    s.blk.res = none ∧ ∃ t, feedByte b s = .next t ∧ feed bs t = .next (u, []) := by
  unfold feed at h
  split at h
  · cases h
  · rename_i hwaits
    refine ⟨(resValid_eq_false_iff _).1 (Bool.eq_false_iff.2 hwaits), ?_⟩
    split at h
    · exact ⟨_, ‹_›, h⟩
    · cases h
    · cases h

/-- Settles O53, by induction on the first chunk. -/
theorem feedIsChunkIndependent : Obligations.FeedIsChunkIndependent := by
  refine ⟨feed_nil, fun s t xs ys h => ?_⟩
  induction xs generalizing s with
  | nil => cases h; rfl
  | cons b bs ih =>
    obtain ⟨hr, u, hbyte, hrest⟩ := feed_cons_taken h
    rw [List.cons_append, feed_cons_of_next hr hbyte, ih u hrest]

/-! ### The invariant along `feed` (R121, R200) -/

/-- A byte stored at `pos` keeps the RX half when what it opens, completes or delivers is sound: a
frame starts with the marker, goes on past its length field with a legal length, and a sound result
waits in Searching. -/
theorem RxSound.stored {cfg : Config} {blk : Block} (h : RxSound cfg blk) {b : Byte} {p next : Nat}
    {res : Option Result} (hp : blk.pos = p) (hm : p < cfg.maxFrame) (hnext : next ≤ p + 1)
    (hmarker : p = 0 → 0 < next → b = cfg.rxMarker)
    (hframe : 3 ≤ next → ∃ lo hi, memRead (memWrite blk.rxbuf p b) 1 = some lo ∧
      memRead (memWrite blk.rxbuf p b) 2 = some hi ∧
      1 ≤ lengthOf lo hi ∧ next < totalOf lo hi ∧ totalOf lo hi ≤ cfg.maxFrame)
    (hsearching : res.isSome → next = 0) (hresult : ∀ r, res = some r → r.Sound cfg) :
    RxSound cfg { blk with rxbuf := memWrite blk.rxbuf p b, pos := next, res := res } where
  buffer := h.buffer.write hm
  written i hi := by
    subst hp
    exact h.written_after b (by simp only at hi; omega)
  marker hpos := by
    simp only at hpos ⊢
    rw [memRead_memWrite]
    split
    · rw [hmarker (Eq.symm ‹_›) hpos]
    · exact h.marker (by omega)
  frame := hframe
  searching := hsearching
  result := hresult

/-- Every case of an accepted byte keeps the RX half of the invariant (R121). -/
theorem RxCase.keeps_rxSound {cfg : Config} {b : Byte} {blk blk' : Block} {ev : Option Event}
    (hcase : RxCase cfg b blk blk' ev) (h : RxSound cfg blk) (hr : blk.res = none) :
    RxSound cfg blk' := by
  cases hcase with
  | noise => exact h
  | marker hp hb hm =>
    exact h.stored hp hm (by omega) (fun _ _ => hb) (by omega) (by simp [hr]) (by simp [hr])
  | lowLength hp hm =>
    exact h.stored hp hm (by omega) (by omega) (by omega) (by simp [hr]) (by simp [hr])
  | overflow lo hp hm =>
    exact h.stored hp hm (by omega) (by omega) (by omega) (by simp [hr]) (by simp [hr])
  | empty lo hp hm =>
    exact h.stored hp hm (by omega) (by omega) (by omega) (by simp [hr]) (by simp [hr])
  | highLength lo hp hm hl ht hz =>
    refine h.stored hp hm (by omega) (by omega) (fun _ => ⟨lo, b, ?_, ?_, ?_, ?_, ht⟩)
      (by simp [hr]) (by simp [hr])
    · rwa [memRead_memWrite_ne _ _ (by decide)]
    · exact memRead_memWrite_self _ _ _
    · omega
    · simp only [totalOf]; omega
  | inside lo hi hp hm hl hh ht =>
    obtain ⟨lo', hi', hl', hh', hlen, -, hfits⟩ := h.frame hp
    obtain rfl : lo = lo' := Option.some.inj (hl.symm.trans hl')
    obtain rfl : hi = hi' := Option.some.inj (hh.symm.trans hh')
    refine h.stored rfl hm (by omega) (by omega) (fun _ => ⟨lo, hi, ?_, ?_, hlen, ht, hfits⟩)
      (by simp [hr]) (by simp [hr])
    · rwa [memRead_memWrite_ne _ _ (by omega)]
    · rwa [memRead_memWrite_ne _ _ (by omega)]
  | last lo hi t args hp hm hl hh ht htype hlen hargs =>
    have hfits : args.length ≤ cfg.argCap := by simp only [Config.argCap]; omega
    refine h.stored rfl hm (by omega) (by omega) (by omega) (fun _ => rfl) (fun r hres => ?_)
    cases hres
    exact decodeRecord_sound hfits

theorem execRxByte_keeps_inv {s t : State} {b : Byte} (h : s.Inv)
    (hexec : execRxByte b s = .next t) : t.Inv := by
  rcases execRxByte_next_iff.1 hexec with ⟨-, rfl⟩ | ⟨hr, blk, ev, hcase, rfl⟩
  · exact h
  · obtain ⟨hbuf, htotal, hidx, hstatus⟩ := hcase.keeps_tx
    exact ⟨h.config, hcase.keeps_rxSound h.rx hr, h.tx.of_fields hbuf htotal hidx hstatus⟩

theorem execResTake_keeps_inv {s t : State} (h : s.Inv) (hexec : execResTake s = .next t) :
    t.Inv := by
  rcases execResTake_next_iff.1 hexec with ⟨-, rfl⟩ | ⟨r, -, rfl⟩
  · exact h
  · obtain ⟨hbuffer, hwritten, hmarker, hframe, -, -⟩ := h.rx
    exact ⟨h.config, ⟨hbuffer, hwritten, hmarker, hframe, nofun, nofun⟩,
      h.tx.of_fields rfl rfl rfl rfl⟩

/-- Under the invariant the take that follows a byte answers, and leaves no result waiting. -/
theorem takeIfWaiting_answers {s : State} (h : s.Inv) :
    ∃ t, takeIfWaiting s = .next t ∧ t.Inv ∧ t.blk.res = none := by
  unfold takeIfWaiting
  split
  · obtain ⟨t, ht⟩ := execResTake_answers s
    exact ⟨t, ht, execResTake_keeps_inv h ht, execResTake_res ht⟩
  · rename_i hwaits
    exact ⟨s, rfl, h, (resValid_eq_false_iff _).1 (Bool.eq_false_iff.2 hwaits)⟩

/-- Under the invariant every byte is taken, whatever it is (R121). -/
theorem feedByte_answers {s : State} (h : s.Inv) (b : Byte) :
    ∃ t, feedByte b s = .next t ∧ t.Inv ∧ t.blk.res = none := by
  obtain ⟨u, hu⟩ := h.execRxByte_answers b
  obtain ⟨t, ht, hinv, hres⟩ := takeIfWaiting_answers (execRxByte_keeps_inv h hu)
  exact ⟨t, andThen_next_iff.2 ⟨u, hu, ht⟩, hinv, hres⟩

/-- Settles O54, by induction on the chunk: `feedByte_answers` at each byte. -/
theorem feedTakesAnyBytes : Obligations.FeedTakesAnyBytes := by
  intro s xs h hr
  induction xs generalizing s with
  | nil => exact ⟨s, rfl, h, hr⟩
  | cons b bs ih =>
    obtain ⟨u, hbyte, hinv, hres⟩ := feedByte_answers h b
    rw [feed_cons_of_next hr hbyte]
    exact ih u hinv hres

/-! ### `send` (R101, R180, R185) -/

/-- `OUT_TAKE` leaves `tx_status` alone (R37). -/
theorem outAdvance_txStatus (blk : Block) : (outAdvance blk).txStatus = blk.txStatus := by
  unfold outAdvance
  split <;> rfl

theorem execOutTake_txStatus {s t : State} (h : execOutTake s = .next t) :
    t.blk.txStatus = s.blk.txStatus := by
  rcases execOutTake_next_iff.1 h with ⟨-, rfl⟩ | ⟨v, -, -, rfl⟩
  · rfl
  · exact outAdvance_txStatus s.blk

/-- The last byte of a frame leaves with `out_last`, and the TX path is idle (R185). -/
theorem execOutTake_of_last {s : State} {v : Byte} (hlast : s.blk.txIdx + 1 = s.blk.txTotal)
    (hv : memRead s.blk.txbuf s.blk.txIdx = some v) :
    execOutTake s = .next ((s.emit v true).finish .outTake none
      { s.blk with txTotal := 0, txIdx := 0 }) := by
  have hflag : s.blk.outLast = true := (outLast_iff _).2 ⟨by omega, by omega⟩
  refine execOutTake_next_iff.2 (.inr ⟨v, by omega, hv, ?_⟩)
  rw [hflag, outAdvance, if_pos hlast]

/-- A byte before the last leaves without `out_last`, and the next one follows (R185). -/
theorem execOutTake_of_not_last {s : State} {v : Byte} (hlt : s.blk.txIdx + 1 < s.blk.txTotal)
    (hv : memRead s.blk.txbuf s.blk.txIdx = some v) :
    execOutTake s = .next ((s.emit v false).finish .outTake none
      { s.blk with txIdx := s.blk.txIdx + 1 }) := by
  have hflag : s.blk.outLast = false := by
    rw [Bool.eq_false_iff, ne_eq, outLast_iff]
    omega
  refine execOutTake_next_iff.2 (.inr ⟨v, by omega, hv, ?_⟩)
  rw [hflag, outAdvance, if_neg (by omega)]

/-- What `OUT_TAKE` repeated leaves alone (R16, R37). -/
theorem outTimes_keeps {n : Nat} {s u : State} (h : outTimes n s = .next u) :
    SameRxPath s u ∧ u.cfg = s.cfg ∧ u.blk.txStatus = s.blk.txStatus := by
  induction n generalizing s with
  | zero => cases h; exact ⟨.refl _, rfl, rfl⟩
  | succ n ih =>
    obtain ⟨t, ht, hu⟩ := andThen_next_iff.1 h
    obtain ⟨hrx, hcfg, hstatus⟩ := ih hu
    have htrx := execOutTake_keeps_rx ht
    exact ⟨⟨hrx.pos.trans htrx.pos, hrx.rxbuf.trans htrx.rxbuf, hrx.res.trans htrx.res,
      hrx.handed.trans htrx.handed⟩, hcfg.trans (exec_cfg ht),
      hstatus.trans (execOutTake_txStatus ht)⟩

/-- The bytes as the sink receives them: `out_last` on the last one alone (R185). -/
def withLast (vs : List Byte) : List (Byte × Bool) := vs.mapIdx (fun n v => (v, n + 1 == vs.length))

theorem withLast_cons {v : Byte} {vs : List Byte} (hne : vs ≠ []) :
    withLast (v :: vs) = (v, false) :: withLast vs := by
  have hlast : 0 ≠ vs.length := Nat.ne_of_lt (List.length_pos_iff.2 hne)
  simp [withLast, List.mapIdx_cons, hlast]

/-- While `vs` is what is left of the frame, taking as many bytes emits exactly `vs`, and the TX
path is idle again. -/
theorem outTimes_emits {vs : List Byte} {s : State} (hne : vs ≠ [])
    (htotal : s.blk.txIdx + vs.length = s.blk.txTotal)
    (hcells : ∀ n, n < vs.length → memRead s.blk.txbuf (s.blk.txIdx + n) = vs[n]?) :
    ∃ u, outTimes vs.length s = .next u ∧ u.emitted = s.emitted ++ withLast vs ∧
      u.blk.txTotal = 0 ∧ u.blk.txIdx = 0 := by
  induction vs generalizing s with
  | nil => exact absurd rfl hne
  | cons v ws ih =>
    have hv : memRead s.blk.txbuf s.blk.txIdx = some v := hcells 0 (Nat.succ_pos _)
    rw [List.length_cons] at htotal
    by_cases hws : ws = []
    · subst hws
      exact ⟨_, andThen_next_iff.2 ⟨_, execOutTake_of_last htotal hv, rfl⟩, rfl, rfl, rfl⟩
    · have hpos : 0 < ws.length := List.length_pos_iff.2 hws
      have htake := execOutTake_of_not_last (s := s) (by omega) hv
      obtain ⟨u, hu, hemitted, hidle⟩ := ih (s := (s.emit v false).finish .outTake none
          { s.blk with txIdx := s.blk.txIdx + 1 }) hws
        (by simp only [State.finish_blk]; omega)
        (fun n hn => by
          have := hcells (n + 1) (Nat.succ_lt_succ hn)
          rw [show s.blk.txIdx + (n + 1) = s.blk.txIdx + 1 + n by omega] at this
          simpa using this)
      refine ⟨u, andThen_next_iff.2 ⟨_, htake, hu⟩, ?_, hidle⟩
      rw [hemitted, withLast_cons hws]
      simp

/-- An accepted request that fits answers a state whose TX path holds its frame, first byte next
(R180, R181). -/
theorem execEncReq_builds_frame {s : State} {k : FrameKind} {t : Byte} {encLen : Half}
    {encData : List Byte} (h4 : 4 ≤ s.cfg.maxFrame) (hd : encData.length ≤ s.cfg.argCap)
    (hidle : s.blk.txTotal = 0) (hfit : requestLength s.cfg k t encLen encData ≤ s.cfg.argCap) :
    ∃ u, execEncReq k t encLen encData s = .next u ∧ u.blk.txStatus = .ok ∧ u.blk.txIdx = 0 ∧
      u.blk.txTotal = (requestFrame s.cfg k t encLen encData).length ∧
      ∀ n, n < (requestFrame s.cfg k t encLen encData).length →
        memRead u.blk.txbuf n = (requestFrame s.cfg k t encLen encData)[n]? := by
  have hlen := requestFrame_length hfit
  have hroom : 0 + (requestFrame s.cfg k t encLen encData).length ≤ s.cfg.maxFrame := by
    rw [hlen]
    simp only [Config.argCap] at hfit
    omega
  obtain ⟨m, hw, hcells, -⟩ := bufWriteList_ok (buf := .tx) (m := s.blk.txbuf) hroom
  have hacc := encAccept_ok_iff.2 (.inr ⟨hfit, rfl, m, hw, rfl⟩)
  refine ⟨_, execEncReq_next_iff.2 ⟨hd, .inr ⟨hidle, _, _, hacc, rfl⟩⟩, rfl, rfl, hlen.symm, ?_⟩
  simpa using hcells

/-- `send` of an accepted request is the request and then its frame's bytes. -/
theorem send_of_accepted {s u : State} {k : FrameKind} {t : Byte} {encLen : Half}
    {encData : List Byte} (hidle : s.blk.txTotal = 0)
    (h : execEncReq k t encLen encData s = .next u) (hok : u.blk.txStatus = .ok) :
    send k t encLen encData s = outTimes u.blk.txTotal u := by
  unfold send
  rw [if_neg (by simp [hidle]), exec_encReq, h]
  exact if_pos hok

/-- Settles O32: the request builds its frame, and `outTimes_emits` takes it whole. -/
theorem sendEmitsExactlyTheFrame : Obligations.SendEmitsExactlyTheFrame := by
  intro s k t encLen encData h4 hd hidle hfit
  obtain ⟨r, hr, hok, hidx, htotal, hcells⟩ := execEncReq_builds_frame (t := t) h4 hd hidle hfit
  have hne : requestFrame s.cfg k t encLen encData ≠ [] := by simp [requestFrame, frameBytes]
  obtain ⟨u, hu, hemitted, hutotal, huidx⟩ := outTimes_emits (s := r) hne
    (by rw [hidx, htotal, Nat.zero_add]) (by simpa [hidx] using hcells)
  obtain ⟨hrx, hcfg, hstatus⟩ := outTimes_keeps hu
  have hrrx := execEncReq_keeps_rx hr
  refine ⟨u, ?_, ?_, hutotal, huidx, hstatus.trans hok, hrx.pos.trans hrrx.pos,
    hrx.rxbuf.trans hrrx.rxbuf, hrx.res.trans hrrx.res, hrx.handed.trans hrrx.handed,
    hcfg.trans (exec_cfg (i := .encReq k t encLen encData) hr)⟩
  · rw [send_of_accepted hidle hr hok, htotal, hu]
  · rw [hemitted, execEncReq_emitted hr, withLast, requestFrame_length hfit]

end Sys2Proof.Machine

/-! ## Frame reassembler (spec/40_frame_reassembler.md): the invariant, the cases of a byte, a whole
frame -/

namespace Sys2Proof.Machine

/-! ### The invariant at reset and along every step (R121, R184) -/

theorem BufSound.nil (cfg : Config) : BufSound cfg [] := ⟨List.Pairwise.nil, by simp⟩

/-- A row of writes that answers keeps a buffer's form. -/
theorem bufWriteList_bufSound {cfg : Config} {buf : Buf} {m m' : Memory} {start : Nat}
    {vs : List Byte} (he : bufWriteList cfg buf m start vs = .ok m') (h : BufSound cfg m) :
    BufSound cfg m' := by
  induction vs generalizing m start with
  | nil => cases he; exact h
  | cons v vs ih =>
    unfold bufWriteList at he
    split at he
    · cases he
    · rename_i m1 hm1
      obtain ⟨hin, rfl⟩ := bufWrite_ok_iff.1 hm1
      exact ih he (h.write hin)

/-- In Searching, whatever is left in the buffer, the RX half asks only for a sound result. -/
theorem RxSound.of_searching {cfg : Config} {blk : Block} (hbuf : BufSound cfg blk.rxbuf)
    (hpos : blk.pos = 0) (hres : ∀ r, blk.res = some r → r.Sound cfg) : RxSound cfg blk where
  buffer := hbuf
  written := by omega
  marker := by omega
  frame := by omega
  searching _ := hpos
  result := hres

/-- While the TX path is idle, the TX half asks only for the buffer's form. -/
theorem TxSound.of_idle {cfg : Config} {blk : Block} (hbuf : BufSound cfg blk.txbuf)
    (htotal : blk.txTotal = 0) (hidx : blk.txIdx = 0) : TxSound cfg blk where
  buffer := hbuf
  idle _ := hidx
  index := absurd htotal
  size := absurd htotal
  written := by omega
  header := absurd htotal
  status := absurd htotal

theorem State.Inv.of_blk_reset {s : State} (hcfg : s.cfg.WellFormed) (hblk : s.blk = Block.reset) :
    s.Inv where
  config := hcfg
  rx := by rw [hblk]; exact .of_searching (.nil _) rfl nofun
  tx := by rw [hblk]; exact .of_idle (.nil _) rfl rfl

/-- Settles O43: after reset both paths are idle and both buffers are empty. -/
theorem invariantHoldsAtReset : Obligations.InvariantHoldsAtReset :=
  ⟨fun _ hcfg => .of_blk_reset hcfg rfl, .of_blk_reset (by decide) rfl⟩

theorem execRxClear_keeps_inv {s t : State} (h : s.Inv) (hexec : execRxClear s = .next t) :
    t.Inv := by
  cases execRxClear_next_iff.1 hexec
  exact ⟨h.config, .of_searching h.rx.buffer rfl h.rx.result, h.tx.of_fields rfl rfl rfl rfl⟩

theorem execReset_keeps_inv {s t : State} (h : s.Inv) (hexec : execReset s = .next t) : t.Inv := by
  cases execReset_next_iff.1 hexec
  exact .of_blk_reset h.config rfl

/-- Once the frame of a request that fits is written, the TX half holds with its first byte next:
the two length bytes give the frame's total back, as `1 + L` fits 16 bits (R6, R180). -/
theorem TxSound.of_frame {cfg : Config} (hmax : 4 ≤ cfg.maxFrame ∧ cfg.maxFrame ≤ 65538)
    {k : FrameKind} {t : Byte} {encLen : Half} {encData : List Byte} {blk : Block} {m : Memory}
    (h : BufSound cfg blk.txbuf) (hfit : requestLength cfg k t encLen encData ≤ cfg.argCap)
    (hw : bufWriteList cfg .tx blk.txbuf 0 (requestFrame cfg k t encLen encData) = .ok m) :
    TxSound cfg { blk with
      txbuf := m, txTotal := 4 + requestLength cfg k t encLen encData,
      txIdx := 0, txStatus := .ok } := by
  have hlen := requestFrame_length hfit
  have hcells : ∀ i, i < 4 + requestLength cfg k t encLen encData →
      memRead m i = (requestFrame cfg k t encLen encData)[i]? := fun i hi => by
    simpa using bufWriteList_inside hw (i := i) (by rwa [hlen])
  simp only [Config.argCap] at hfit
  exact {
    buffer := bufWriteList_bufSound hw h
    idle := fun _ => rfl
    index := fun _ => by dsimp only; omega
    size := fun _ => by dsimp only; omega
    written := fun i hi => by
      rw [hcells i hi, List.getElem?_eq_getElem (by rwa [hlen]), Option.isSome_some]
    header := fun _ => ⟨k, _, _, hcells 0 (by omega), hcells 1 (by omega), hcells 2 (by omega), by
      rw [totalOf, lengthOf_bytes (by omega)]; dsimp only; omega⟩
    status := fun _ => rfl }

theorem encAccept_keeps_txSound {cfg : Config} (hcfg : cfg.WellFormed) {k : FrameKind} {t : Byte}
    {encLen : Half} {encData : List Byte} {blk blk' : Block} {ev : Option Event}
    (h : TxSound cfg blk) (hidle : blk.txTotal = 0)
    (hacc : encAccept cfg k t encLen encData blk = .ok (blk', ev)) : TxSound cfg blk' := by
  rcases encAccept_ok_iff.1 hacc with ⟨-, rfl, -⟩ | ⟨hfit, -, m, hw, rfl⟩
  · exact .of_idle h.buffer hidle (h.idle hidle)
  · exact .of_frame hcfg.maxFrame h.buffer hfit hw

theorem execEncReq_keeps_inv {s u : State} {k : FrameKind} {t : Byte} {encLen : Half}
    {encData : List Byte} (h : s.Inv) (hexec : execEncReq k t encLen encData s = .next u) :
    u.Inv := by
  obtain ⟨-, ⟨-, rfl⟩ | ⟨hidle, blk, ev, hacc, rfl⟩⟩ := execEncReq_next_iff.1 hexec
  · exact h
  · obtain ⟨hpos, hbuf, hres⟩ := encAccept_keeps_rx hacc
    exact ⟨h.config, h.rx.of_fields hpos hbuf hres,
      encAccept_keeps_txSound h.config h.tx hidle hacc⟩

/-- A byte taken from inside the frame leaves the index inside, or the TX path idle (R184, R185). -/
theorem outAdvance_keeps_txSound {cfg : Config} {blk : Block} (h : TxSound cfg blk)
    (hidx : blk.txIdx < blk.txTotal) : TxSound cfg (outAdvance blk) := by
  unfold outAdvance
  split
  · exact .of_idle h.buffer rfl rfl
  · exact { h with
      idle := fun (h0 : blk.txTotal = 0) => by omega
      index := fun _ => by dsimp only; omega }

theorem execOutTake_keeps_inv {s t : State} (h : s.Inv) (hexec : execOutTake s = .next t) :
    t.Inv := by
  rcases execOutTake_next_iff.1 hexec with ⟨-, rfl⟩ | ⟨v, hidx, -, rfl⟩
  · exact h
  · obtain ⟨hpos, hbuf, hres⟩ := outAdvance_keeps_rx s.blk
    exact ⟨h.config, h.rx.of_fields hpos hbuf hres, outAdvance_keeps_txSound h.tx hidx⟩

/-- Every transaction that answers keeps the invariant. -/
theorem exec_keeps_inv {i : Instr} {s t : State} (h : s.Inv) (hexec : exec i s = .next t) :
    t.Inv := by
  cases i with
  | rxByte b => exact execRxByte_keeps_inv h hexec
  | rxClear => exact execRxClear_keeps_inv h hexec
  | resTake => exact execResTake_keeps_inv h hexec
  | encReq k y encLen encData => exact execEncReq_keeps_inv h hexec
  | outTake => exact execOutTake_keeps_inv h hexec
  | reset => exact execReset_keeps_inv h hexec

/-- Settles O44: a step idles or runs one transaction, in a state of the invariant again. -/
theorem stepKeepsTheInvariant : Obligations.StepKeepsTheInvariant := by
  intro s t h hstep
  rcases step_next hstep with rfl | ⟨i, rest, -, -, hexec⟩
  · exact h
  · exact exec_keeps_inv (h.withPending rest) hexec

/-! ### The cases of a byte (R112 to R120) -/

theorem Config.rxMarker_of_kind {cfg : Config} {marker : Byte}
    (h : (cfg.rxKind = .cmd ∧ marker = 0x3C#8) ∨ (cfg.rxKind = .rsp ∧ marker = 0x3E#8)) :
    cfg.rxMarker = marker := by
  unfold Config.rxMarker
  rcases h with ⟨hkind, rfl⟩ | ⟨hkind, rfl⟩ <;> rw [hkind] <;> rfl

/-- Settles O13: the case of the marker and the case of noise. -/
theorem searchingTakesOnlyTheMarker : Obligations.SearchingTakesOnlyTheMarker := by
  intro s b marker hkind hr hp h4
  obtain rfl := Config.rxMarker_of_kind hkind
  split
  · exact execRxByte_of_case hr (.marker hp ‹_› (by omega))
  · exact execRxByte_of_case hr (.noise hp ‹_›)

/-- Settles O14: the case of R114. -/
theorem lowLengthByteIsStored : Obligations.LowLengthByteIsStored :=
  fun _ _ hr hp h4 => execRxByte_of_case hr (.lowLength hp (by omega))

/-- Settles O15: the cases of overflow, of an empty frame and of a legal length, in this order. -/
theorem highLengthByteDecidesTheFrame : Obligations.HighLengthByteDecidesTheFrame := by
  intro s b lo hr hp h4 hl
  split
  · exact execRxByte_of_case hr (.overflow lo hp (by omega) hl ‹_›)
  · rename_i hfits
    split
    · exact execRxByte_of_case hr (.empty lo hp (by omega) hl (Nat.not_lt.1 hfits) ‹_›)
    · exact execRxByte_of_case hr (.highLength lo hp (by omega) hl (Nat.not_lt.1 hfits) ‹_›)

/-- Settles O16: the case of R118. -/
theorem bodyByteIsStored : Obligations.BodyByteIsStored :=
  fun _ _ lo hi hr hp hm hl hh ht => execRxByte_of_case hr (.inside lo hi hp hm hl hh ht)

/-- Settles O17: the case of R119, whose event is the result's. -/
theorem lastByteDeliversTheDecodedFrame : Obligations.LastByteDeliversTheDecodedFrame := by
  intro s b lo hi t args hr hp hm hl hh ht htype hlen hargs
  have htotal : args.length = totalOf lo hi - 4 := by simp only [totalOf, lengthOf]; omega
  exact execRxByte_of_case hr (.last lo hi t args hp hm hl hh ht htype htotal hargs)

/-- Past Searching a byte is no noise: it is stored at `pos` (R120). -/
theorem RxCase.stored_of_pos_ne_zero {cfg : Config} {b : Byte} {blk blk' : Block}
    {ev : Option Event} (h : RxCase cfg b blk blk' ev) (hp : blk.pos ≠ 0) :
    blk'.rxbuf = memWrite blk.rxbuf blk.pos b := by
  rcases h.unchanged_or_stored with rfl | hstored
  · have := h.pos_advances_or_returns
    omega
  · exact hstored

/-- Settles O18: under the invariant every byte has its case, and past Searching it is stored. -/
theorem bytesInsideAFrameAreData : Obligations.BytesInsideAFrameAreData := by
  intro s b h hr hp
  obtain ⟨blk, ev, hcase⟩ := h.rx.case h.config.four_le b
  refine ⟨_, execRxByte_of_case hr hcase, ?_, hcase.pos_advances_or_returns⟩
  rw [State.finish_blk, hcase.stored_of_pos_ne_zero hp, memRead_memWrite_self]

/-! ### A whole frame, byte by byte (R80, R119, R124) -/

/-- A byte that moves `pos` on is stored, and does nothing else (R112, R114, R115, R118). -/
theorem RxCase.eq_stored_of_advance {cfg : Config} {b : Byte} {blk blk' : Block}
    {ev : Option Event} (h : RxCase cfg b blk blk' ev) (hadvance : blk'.pos = blk.pos + 1) :
    blk' = { blk with rxbuf := memWrite blk.rxbuf blk.pos b, pos := blk.pos + 1 } := by
  cases h with
  | marker hp | lowLength hp | highLength _ hp => rw [hp]
  | inside => rfl
  | noise => omega
  | overflow | empty | last => cases hadvance

theorem execAll_cons_of_next {i : Instr} {is : List Instr} {s t : State}
    (h : exec i s = .next t) : execAll (i :: is) s = execAll is t := by
  simp only [execAll, h, andThen]

/-- `pre` is what has been stored of the current frame, and no result waits. -/
structure Assembling (pre : List Byte) (s : State) : Prop where
  res : s.blk.res = none
  pos : s.blk.pos = pre.length
  cells : ∀ i, i < pre.length → memRead s.blk.rxbuf i = pre[i]?

theorem Assembling.of_searching {s : State} (hr : s.blk.res = none) (hp : s.blk.pos = 0) :
    Assembling [] s := ⟨hr, hp, nofun⟩

section
variable {pre : List Byte} {s : State}

theorem Assembling.memRead_stored (h : Assembling pre s) (b : Byte) {i : Nat}
    (hi : i ≤ pre.length) :
    memRead (memWrite s.blk.rxbuf s.blk.pos b) i = (pre ++ [b])[i]? := by
  rw [memRead_memWrite, h.pos]
  split
  · simp [*]
  · rw [h.cells i (by omega), List.getElem?_append_left (by omega)]

/-- A byte whose case moves `pos` on is added to what has been stored. -/
theorem Assembling.takes {b : Byte} {blk : Block} {ev : Option Event} (h : Assembling pre s)
    (hcase : RxCase s.cfg b s.blk blk ev) (hadvance : blk.pos = s.blk.pos + 1) :
    ∃ t, exec (.rxByte b) s = .next t ∧ Assembling (pre ++ [b]) t ∧ t.cfg = s.cfg ∧
      t.handed = s.handed := by
  obtain rfl := hcase.eq_stored_of_advance hadvance
  refine ⟨_, execRxByte_of_case h.res hcase, ⟨h.res, ?_, fun i hi => h.memRead_stored b ?_⟩,
    rfl, rfl⟩
  · rw [State.finish_blk, hadvance, h.pos, List.length_append, List.length_singleton]
  · rw [List.length_append, List.length_singleton] at hi
    omega

/-- Past the length field, the rest of a frame whose length field counts its body ends in the
decoded result. By induction on the rest: its last byte delivers, any other is stored. -/
theorem Assembling.takes_rest {m lo hi t : Byte} {args rest : List Byte} (h : Assembling pre s)
    (hp : 3 ≤ pre.length) (hne : rest ≠ []) (hframe : pre ++ rest = m :: lo :: hi :: t :: args)
    (hlen : lengthOf lo hi = 1 + args.length) (hfits : 4 + args.length ≤ s.cfg.maxFrame) :
    ∃ u, execAll (rest.map Instr.rxByte) s = .next u ∧
      u.blk.res = some (decodeRecord s.cfg t args) ∧ u.blk.pos = 0 ∧ u.handed = s.handed := by
  induction rest generalizing pre s with
  | nil => exact absurd rfl hne
  | cons b bs ih =>
    have hcell : ∀ i, i < pre.length →
        memRead s.blk.rxbuf i = (m :: lo :: hi :: t :: args)[i]? := fun i hi => by
      rw [← hframe, List.getElem?_append_left hi, h.cells i hi]
    have hl : memRead s.blk.rxbuf 1 = some lo := hcell 1 (by omega)
    have hh : memRead s.blk.rxbuf 2 = some hi := hcell 2 (by omega)
    have hpos := h.pos
    have htotal : totalOf lo hi = 4 + args.length := by rw [totalOf, hlen]; omega
    have hcount : pre.length + (bs.length + 1) = 4 + args.length := by
      simpa [Nat.add_comm 4] using congrArg List.length hframe
    cases bs with
    | nil =>
      rw [List.length_nil] at hcount
      have hstored : ∀ i, i ≤ pre.length → memRead (memWrite s.blk.rxbuf s.blk.pos b) i =
          (m :: lo :: hi :: t :: args)[i]? := fun i hi => hframe ▸ h.memRead_stored b hi
      have hargs : ∀ i, i < args.length →
          memRead (memWrite s.blk.rxbuf s.blk.pos b) (4 + i) = args[i]? := fun i hi => by
        rw [hstored (4 + i) (by omega), Nat.add_comm 4]; rfl
      have hcase := RxCase.last (cfg := s.cfg) lo hi t args (by omega) (by omega) hl hh (by omega)
        (hstored 3 hp) (by omega) hargs
      exact ⟨_, (execAll_singleton _ s).trans (execRxByte_of_case h.res hcase), rfl, rfl, rfl⟩
    | cons c cs =>
      rw [List.length_cons] at hcount
      obtain ⟨s', hbyte, hs', hcfg, hhanded⟩ := h.takes
        (.inside lo hi (b := b) (by omega) (by omega) hl hh (by omega)) rfl
      rw [List.map_cons, execAll_cons_of_next hbyte, ← hcfg, ← hhanded]
      exact ih hs' (by rw [List.length_append]; omega) (List.cons_ne_nil _ _)
        (by rw [← hframe, List.append_assoc]; rfl) (hcfg ▸ hfits)

end

/-- From Searching, the marker, a length field that counts the body, and the body end in the decoded
result: three header bytes, and `Assembling.takes_rest`. -/
theorem execAll_frame {s : State} {lo hi t : Byte} {args : List Byte} (hr : s.blk.res = none)
    (hp : s.blk.pos = 0) (hlen : lengthOf lo hi = 1 + args.length)
    (hfits : 4 + args.length ≤ s.cfg.maxFrame) :
    ∃ u, execAll ((s.cfg.rxMarker :: lo :: hi :: t :: args).map Instr.rxByte) s = .next u ∧
      u.blk.res = some (decodeRecord s.cfg t args) ∧ u.blk.pos = 0 ∧ u.handed = s.handed := by
  have h0 := Assembling.of_searching hr hp
  obtain ⟨s1, hb1, h1, hcfg1, hhanded1⟩ := h0.takes (.marker hp rfl (by omega)) (by rw [hp])
  obtain ⟨s2, hb2, h2, hcfg2, hhanded2⟩ := h1.takes (b := lo)
    (.lowLength h1.pos (by rw [hcfg1]; omega)) (by rw [h1.pos]; rfl)
  obtain ⟨s3, hb3, h3, hcfg3, hhanded3⟩ := h2.takes (b := hi) (.highLength lo h2.pos
    (by rw [hcfg2, hcfg1]; omega) (h2.cells 1 (by simp))
    (by rw [hcfg2, hcfg1, totalOf]; omega) (by omega)) (by rw [h2.pos]; rfl)
  have hcfg : s3.cfg = s.cfg := hcfg3.trans (hcfg2.trans hcfg1)
  rw [List.map_cons, execAll_cons_of_next hb1, List.map_cons, execAll_cons_of_next hb2,
    List.map_cons, execAll_cons_of_next hb3, ← hcfg, ← hhanded1, ← hhanded2, ← hhanded3]
  exact h3.takes_rest (Nat.le_refl 3) (List.cons_ne_nil _ _) rfl hlen (hcfg ▸ hfits)

/-- Settles O51: the two length bytes give the body's length back, as it fits 16 bits (R6). -/
theorem wholeFrameIsDecoded : Obligations.WholeFrameIsDecoded := by
  intro s t args h4 hmax hr hp hargs
  simp only [Config.argCap] at hargs
  exact execAll_frame (args := args) hr hp (lengthOf_bytes (by omega)) (by omega)

end Sys2Proof.Machine

/-! ## The length validator (spec/41_length_validator.md) -/

namespace Sys2Proof

/-- R137: without duplicates, a lookup in any reordering of the table gives the same answer. -/
theorem lookupLen_perm {es es' : List LenEntry} (hd : (es.map LenEntry.id).Nodup)
    (hp : es.Perm es') (t : Byte) : lookupLen es t = lookupLen es' t := by
  have hd' : (es'.map LenEntry.id).Nodup := (hp.map LenEntry.id).nodup hd
  ext ⟨lo, hi⟩
  rw [lookupLen_eq_some_iff hd, lookupLen_eq_some_iff hd', hp.mem_iff]

end Sys2Proof

namespace Sys2Proof.Machine

section
variable {cfg : Config} {t : Byte} {n : Nat} {lo hi : Half}

/-- R132: the count plays no part on a lookup miss. -/
theorem validate_of_miss (h : lookupLen cfg.lenTable t = none) : validate cfg t n = .noEntry := by
  simp only [validate, h]

/-- R133 and R134: the bounds of the entry found decide, both of them included. -/
theorem validate_of_entry (h : lookupLen cfg.lenTable t = some (lo, hi)) :
    validate cfg t n =
      if n < lo.toNat ∨ hi.toNat < n then .outOfRange lo hi else .pass := by
  simp only [validate, h]

/-- R137: `validate` reads nothing of the configuration but the entry at the key. -/
theorem validate_congr {cfg' : Config} (h : lookupLen cfg.lenTable t = lookupLen cfg'.lenTable t) :
    validate cfg t n = validate cfg' t n := by
  simp only [validate, h]

end

/-- Settles O22: a permutation keeps what the lookup answers, and the verdict reads only that. -/
theorem verdictIgnoresTableOrder : Obligations.VerdictIgnoresTableOrder :=
  ⟨fun _ _ _ _ h => validate_congr h, fun _ _ t _ hd hp => validate_congr (lookupLen_perm hd hp t)⟩

/-- Settles O21, by the two cases of the lookup (R132, and R133 with R134). -/
theorem verdictsOfTheLengthTable : Obligations.VerdictsOfTheLengthTable := by
  intro cfg t n
  refine ⟨validate_of_miss, fun lo hi h => ⟨fun hout => ?_, fun hlo hhi => ?_⟩⟩
  · rw [validate_of_entry h, if_pos hout]
  · rw [validate_of_entry h, if_neg (by omega)]

end Sys2Proof.Machine

/-! ## The record decoder (spec/42_record_decoder.md) -/

namespace Sys2Proof.Machine

/-! ### The three results of a decode (R151 to R155) -/

section
variable {cfg : Config} {t : Byte} {args : List Byte}

theorem decodeRecord_of_noEntry (h : validate cfg t args.length = .noEntry) :
    decodeRecord cfg t args = .unsupported t args.length := by
  simp only [decodeRecord, h]

theorem decodeRecord_of_outOfRange {lo hi : Half}
    (h : validate cfg t args.length = .outOfRange lo hi) :
    decodeRecord cfg t args = .badLen t args.length lo hi := by
  simp only [decodeRecord, h]

theorem decodeRecord_of_pass (h : validate cfg t args.length = .pass) :
    decodeRecord cfg t args = .ok t args.length (padTo (cfg.argCap + 1) args) := by
  simp only [decodeRecord, h]

/-- R157: short of `PASS`, the decoder reads nothing of the arguments but their count. -/
theorem decodeRecord_eq_of_length_eq {args' : List Byte} (hlen : args'.length = args.length)
    (hv : validate cfg t args.length ≠ .pass) :
    decodeRecord cfg t args' = decodeRecord cfg t args := by
  cases h : validate cfg t args.length with
  | pass => exact absurd h hv
  | noEntry =>
    rw [decodeRecord_of_noEntry h, decodeRecord_of_noEntry (hlen ▸ h), hlen]
  | outOfRange lo hi =>
    rw [decodeRecord_of_outOfRange h, decodeRecord_of_outOfRange (hlen ▸ h), hlen]

end

/-- Settles O24: the cells are the padded arguments, and the padding starts at index `n`, inside the
`ARG_CAP + 1` cells because the arguments fit. -/
theorem decodedRecordIsVerbatimAndZeroFilled :
    Obligations.DecodedRecordIsVerbatimAndZeroFilled := by
  intro cfg t args hfits hpass
  refine ⟨padTo (cfg.argCap + 1) args, decodeRecord_of_pass hpass, padTo_length _ _,
    fun n hn => ?_, fun n hn hcap => ?_, ?_⟩
  · exact padTo_getElem?_inside (by omega) hn
  · exact padTo_getElem?_beyond (by omega) hn
  · exact padTo_getElem?_beyond (by omega) (Nat.le_refl _)

/-- Settles O23, by the decoder's result on each error verdict. -/
theorem errorResultsCopyNothing : Obligations.ErrorResultsCopyNothing :=
  fun _ _ _ => ⟨decodeRecord_of_noEntry, fun _ _ => decodeRecord_of_outOfRange,
    fun _ => decodeRecord_eq_of_length_eq⟩

/-! ### The result register and the handler's record (R125, R158, R201) -/

/-- An accepted byte delivers nothing, or a result together with the return to Searching (R119). -/
theorem RxCase.keeps_res_or_delivers {cfg : Config} {b : Byte} {blk blk' : Block}
    {ev : Option Event} (h : RxCase cfg b blk blk' ev) :
    blk'.res = blk.res ∨ ∃ r, blk'.res = some r ∧ blk'.pos = 0 := by
  cases h with
  | noise | marker | lowLength | overflow | empty | highLength | inside => exact .inl rfl
  | last => exact .inr ⟨_, rfl, rfl⟩

/-- A result appears only where none waits, since a byte holds while one does (R125). -/
theorem execRxByte_res {s t : State} {b : Byte} (h : execRxByte b s = .next t) :
    t.blk.res = s.blk.res ∨ (s.blk.res = none ∧ ∃ r, t.blk.res = some r ∧ t.blk.pos = 0) := by
  rcases execRxByte_next_iff.1 h with ⟨-, rfl⟩ | ⟨hr, blk, ev, hcase, rfl⟩
  · exact .inl rfl
  · exact hcase.keeps_res_or_delivers.imp_right fun hdelivers => ⟨hr, hdelivers⟩

/-- The handler receives the waiting result, or nothing if none waits (R200). -/
theorem execResTake_handed {s t : State} (h : execResTake s = .next t) :
    t.handed = s.handed ++ s.blk.res.toList := by
  rcases execResTake_next_iff.1 h with ⟨hr, rfl⟩ | ⟨r, hr, rfl⟩ <;> simp [hr]

/-- Every transaction but `RX_BYTE`, `RES_TAKE` and `RESET` leaves the result register and the
handler's record alone: `RX_CLEAR` moves `pos` alone, and the TX path does not own them (R16). -/
theorem exec_keeps_res_handed {i : Instr} {s t : State} (h : exec i s = .next t)
    (hbyte : ¬ ∃ b, i = .rxByte b) (htake : i ≠ .resTake) (hreset : i ≠ .reset) :
    t.handed = s.handed ∧ t.blk.res = s.blk.res := by
  cases i with
  | rxByte b => exact absurd ⟨b, rfl⟩ hbyte
  | rxClear =>
    cases execRxClear_next_iff.1 h
    exact ⟨rfl, rfl⟩
  | resTake => exact absurd rfl htake
  | encReq k y encLen encData =>
    have hrx := execEncReq_keeps_rx h
    exact ⟨hrx.handed, hrx.res⟩
  | outTake =>
    have hrx := execOutTake_keeps_rx h
    exact ⟨hrx.handed, hrx.res⟩
  | reset => exact absurd rfl hreset

/-- Settles O49: what each transaction does to the result register and to the handler's record. -/
theorem resultsAreHandedOverOnceEach : Obligations.ResultsAreHandedOverOnceEach := by
  intro i s t h
  refine ⟨?_, ?_, ?_, exec_keeps_res_handed h⟩
  · rintro ⟨b, rfl⟩
    exact ⟨execRxByte_handed h, execRxByte_res h⟩
  · rintro rfl
    have hhanded := execResTake_handed h
    exact ⟨fun r hr => by simpa [hr] using hhanded, fun hr => by simpa [hr] using hhanded,
      execResTake_res h⟩
  · rintro rfl
    cases execReset_next_iff.1 h
    exact ⟨rfl, rfl⟩

end Sys2Proof.Machine

/-! ## The record encoder (spec/43_record_encoder.md) -/

namespace Sys2Proof.Machine

/-! ### The argument length of each mode (R173 to R177) -/

section
variable {cfg : Config} {t : Byte} {encLen : Half} {encData : List Byte}

/-- R173 and R177: a command takes the caller's length. -/
theorem requestLength_cmd : requestLength cfg .cmd t encLen encData = encLen.toNat := rfl

/-- R173 and R177: so does a response code without an entry. -/
theorem requestLength_of_noEntry (h : lookupEnc cfg.encTable t = none) :
    requestLength cfg .rsp t encLen encData = encLen.toNat := by
  simp only [requestLength, lengthMode, h, Option.getD_none, argLength]

/-- R173: a response code with an entry follows the entry's mode. -/
theorem requestLength_of_entry {m : EncMode} (h : lookupEnc cfg.encTable t = some m) :
    requestLength cfg .rsp t encLen encData = argLength cfg (encOperand cfg encData) encLen m := by
  simp only [requestLength, lengthMode, h, Option.getD_some]

end

section
variable {cfg : Config} {d : List Byte} {p j : Nat}

/-- The name field `d[p..ARG_CAP)` (R176), index by index. -/
theorem nameField_getElem? (hj : j < cfg.argCap - p) :
    ((d.drop p).take (cfg.argCap - p))[j]? = d[p + j]? := by
  rw [List.getElem?_take_of_lt hj, List.getElem?_drop]

theorem strlenBounded_le : strlenBounded cfg d p ≤ cfg.argCap - p :=
  Nat.le_trans (untilZero_le _) (List.length_take_le _ _)

/-- No byte of the name before its bounded length is zero (R176). -/
theorem strlenBounded_before (hj : j < strlenBounded cfg d p) : d[p + j]? ≠ some 0x00#8 := by
  rw [← nameField_getElem? (Nat.lt_of_lt_of_le hj strlenBounded_le)]
  exact untilZero_before _ j hj

/-- A name shorter than its field ends at a zero (R176). -/
theorem strlenBounded_at (hd : d.length = cfg.argCap)
    (hshort : strlenBounded cfg d p < cfg.argCap - p) :
    d[p + strlenBounded cfg d p]? = some 0x00#8 := by
  rw [← nameField_getElem? hshort]
  have hfield : ((d.drop p).take (cfg.argCap - p)).length = cfg.argCap - p := by
    rw [List.length_take, List.length_drop, hd, Nat.min_self]
  exact untilZero_at _ (Nat.lt_of_lt_of_eq hshort hfield.symm)

end

/-- Settles O26: the mode of each request, and the bounded length of the name under `SELF_INFO`. -/
theorem argumentLengthFollowsTheMode : Obligations.ArgumentLengthFollowsTheMode := by
  intro cfg t encLen encData
  refine ⟨requestLength_cmd, requestLength_of_noEntry, requestLength_of_entry,
    fun m => requestLength_of_entry, fun p hmode hp => ?_⟩
  have hle := strlenBounded_le (cfg := cfg) (d := encOperand cfg encData) (p := p)
  exact ⟨strlenBounded cfg (encOperand cfg encData) p, requestLength_of_entry hmode, by omega,
    fun _ => strlenBounded_before, strlenBounded_at (encOperand_length cfg encData)⟩

/-- The length of a mode that fits `ARG_CAP` fits it too, unless the caller gives it (R171 check 3).
-/
theorem argLength_le_of_fits {cfg : Config} {d : List Byte} {encLen : Half} {m : EncMode}
    (hfits : m.fits cfg.argCap = true) (hm : m ≠ .explicit) :
    argLength cfg d encLen m ≤ cfg.argCap := by
  cases m with
  | fixed n => exact EncMode.fits_iff.1 hfits n (.inl rfl)
  | selfInfo p =>
    have hp : p ≤ cfg.argCap := EncMode.fits_iff.1 hfits p (.inr rfl)
    have hle := strlenBounded_le (cfg := cfg) (d := d) (p := p)
    simp only [argLength]
    omega
  | explicit => exact absurd rfl hm

/-- Settles O29: the mode of an entry is `EXPLICIT`, or its length fits. -/
theorem onlyExplicitLengthsAreTooLong : Obligations.OnlyExplicitLengthsAreTooLong := by
  intro cfg k t encLen encData hcfg hlong
  cases k with
  | cmd => exact ⟨.inl rfl, requestLength_cmd⟩
  | rsp =>
    cases hmode : lookupEnc cfg.encTable t with
    | none => exact ⟨.inr (.inl rfl), requestLength_of_noEntry hmode⟩
    | some m =>
      rw [requestLength_of_entry hmode] at hlong ⊢
      by_cases hm : m = .explicit
      · subst hm
        exact ⟨.inr (.inr rfl), rfl⟩
      · have := argLength_le_of_fits (encLen := encLen) (d := encOperand cfg encData)
          (hcfg.mode_fits hmode) hm
        omega

/-! ### The frame of a request (R172, R178 to R182) -/

/-- The argument bytes of a request: the first `L` of the padded data (R180). -/
def requestArgs (cfg : Config) (k : FrameKind) (t : Byte) (encLen : Half) (encData : List Byte) :
    List Byte :=
  (encOperand cfg encData).take (requestLength cfg k t encLen encData)

section
variable {cfg : Config} {k : FrameKind} {t : Byte} {encLen : Half} {encData : List Byte}

theorem requestFrame_eq : requestFrame cfg k t encLen encData =
    [k.marker, BitVec.ofNat 8 ((1 + requestLength cfg k t encLen encData) % 256),
      BitVec.ofNat 8 ((1 + requestLength cfg k t encLen encData) / 256), t] ++
      requestArgs cfg k t encLen encData := rfl

theorem requestArgs_length (hfit : requestLength cfg k t encLen encData ≤ cfg.argCap) :
    (requestArgs cfg k t encLen encData).length = requestLength cfg k t encLen encData := by
  rw [requestArgs, List.length_take_of_le (by rwa [encOperand_length])]

theorem requestArgs_getElem? {n : Nat} (hn : n < requestLength cfg k t encLen encData) :
    (requestArgs cfg k t encLen encData)[n]? = (encOperand cfg encData)[n]? :=
  List.getElem?_take_of_lt hn

/-- An argument byte is the caller's, or zero where the caller gave none (R97, R170). -/
theorem requestFrame_getElem?_arg {n : Nat}
    (hfit : requestLength cfg k t encLen encData ≤ cfg.argCap)
    (hn : n < requestLength cfg k t encLen encData) :
    (requestFrame cfg k t encLen encData)[4 + n]? = some (encData[n]?.getD 0x00#8) := by
  calc (requestFrame cfg k t encLen encData)[4 + n]?
      = (requestArgs cfg k t encLen encData)[n]? := by
        rw [requestFrame_eq, Nat.add_comm 4]; rfl
    _ = (encOperand cfg encData)[n]? := requestArgs_getElem? hn
    _ = some (encData[n]?.getD 0x00#8) := by
        rw [encOperand, padTo_getElem?, if_pos (Nat.lt_of_lt_of_le hn hfit)]

end

/-- Settles O27: the request is accepted, and `txbuf` is the row of writes of its frame. -/
theorem acceptedRequestBuildsItsFrame : Obligations.AcceptedRequestBuildsItsFrame := by
  rintro s k t encLen encData _ h4 hd hidle rfl hfit
  obtain ⟨blk, ev, hacc⟩ := encAccept_answers h4 k t encLen encData s.blk
  have hexec := execEncReq_next_iff.2 ⟨hd, .inr ⟨hidle, blk, ev, hacc, rfl⟩⟩
  obtain ⟨hlong, -⟩ | ⟨-, rfl, m, hw, rfl⟩ := encAccept_ok_iff.1 hacc
  · omega
  · have hlen := requestFrame_length hfit
    have hcell : ∀ n, n < 4 + requestLength s.cfg k t encLen encData →
        memRead m n = (requestFrame s.cfg k t encLen encData)[n]? := fun n hn => by
      simpa using bufWriteList_inside hw (i := n) (by rwa [hlen])
    refine ⟨m, hexec, ?_, hcell 1 (by omega), hcell 2 (by omega), hcell 3 (by omega),
      fun n hn => ?_, fun n hn => bufWriteList_outside hw (.inr (by omega))⟩
    · rw [hcell 0 (by omega)]
      cases k <;> rfl
    · rw [hcell (4 + n) (by omega), requestFrame_getElem?_arg hfit hn]

/-- Settles O28: the first case of an accepted request. -/
theorem tooLongRequestEmitsNothing : Obligations.TooLongRequestEmitsNothing :=
  fun _ _ _ _ _ hd hidle hlong => execEncReq_next_iff.2
    ⟨hd, .inr ⟨hidle, _, _, encAccept_ok_iff.2 (.inl ⟨hlong, rfl, rfl⟩), rfl⟩⟩

/-- Settles O30: the last byte of the frame, or one before it. -/
theorem outTakeEmitsTheNextByte : Obligations.OutTakeEmitsTheNextByte := by
  intro s v hidx hv
  split
  · exact execOutTake_of_last ‹_› hv
  · exact execOutTake_of_not_last (by omega) hv

/-! ### The round trip (R187, conflict C7) -/

/-- A count within the bounds of its entry passes (R131). -/
theorem validate_pass_of_bounds {cfg : Config} {t : Byte} {n : Nat} {lo hi : Half}
    (hentry : lookupLen cfg.lenTable t = some (lo, hi)) (hlo : lo.toNat ≤ n) (hhi : n ≤ hi.toNat) :
    validate cfg t n = .pass := by
  rw [validate_of_entry hentry, if_neg (by omega)]

/-- Settles O52: the request's frame is a whole frame of the receiver's kind (O51), the bounds pass
its arguments, and the decoder copies them and fills with zeros (O24). -/
theorem encodedFrameDecodesToItsRequest : Obligations.EncodedFrameDecodesToItsRequest := by
  rintro s r k t encLen encData lo hi hcfg hfit rfl hp hr hentry hlo hhi hcap
  have hlen := requestArgs_length hfit
  obtain ⟨hmin, hmax⟩ := hcfg.maxFrame
  rw [requestFrame_eq]
  rw [← hlen] at hlo hhi hcap ⊢
  obtain ⟨u, hu, hres, hpos, -⟩ := wholeFrameIsDecoded r t _ hmin hmax hr hp hcap
  obtain ⟨a, hdecode, -, hargs, hzero, -⟩ := decodedRecordIsVerbatimAndZeroFilled r.cfg t _ hcap
    (validate_pass_of_bounds hentry hlo hhi)
  exact ⟨u, a, hu, hres.trans (congrArg some hdecode), hpos,
    fun n hn => (hargs n hn).trans (requestArgs_getElem? (Nat.lt_of_lt_of_eq hn hlen)), hzero⟩

end Sys2Proof.Machine

/-! ## Dispatch and control (spec/44_dispatch_and_control.md) -/

namespace Sys2Proof.Machine

/-! ### What `RES_TAKE`, `RX_CLEAR` and `RESET` answer (R200 to R204) -/

/-- Settles O33: with a result waiting, `RES_TAKE` does not hold. -/
theorem resTakeHandsTheResultOver : Obligations.ResTakeHandsTheResultOver :=
  fun _ r hr => execResTake_next_iff.2 (.inr ⟨r, hr, rfl⟩)

/-- Settles O34: `RX_CLEAR` has one answer. -/
theorem rxClearDropsThePartialFrame : Obligations.RxClearDropsThePartialFrame :=
  fun _ => execRxClear_next_iff.2 rfl

/-- Settles O35: `RESET` has one answer, and its block is the one of R48. -/
theorem resetClearsTheBlock : Obligations.ResetClearsTheBlock :=
  fun _ => execReset_next_iff.2 rfl

/-! ### The block after a take or a clear (R185, R200, R202) -/

/-- After `RES_TAKE` no result waits, whether it held or not. -/
theorem execResTake_blk {s t : State} (h : execResTake s = .next t) :
    t.blk = { s.blk with res := none } := by
  rcases execResTake_next_iff.1 h with ⟨hr, rfl⟩ | ⟨r, -, rfl⟩
  · rw [← hr]
  · rfl

theorem execRxClear_blk {s t : State} (h : execRxClear s = .next t) :
    t.blk = { s.blk with pos := 0 } := by
  cases execRxClear_next_iff.1 h
  rfl

/-- A taken byte moves `tx_total` and `tx_idx` alone (R185). -/
theorem outAdvance_frame (blk : Block) :
    outAdvance blk =
      { blk with txTotal := (outAdvance blk).txTotal, txIdx := (outAdvance blk).txIdx } := by
  unfold outAdvance
  split <;> rfl

theorem execOutTake_blk {s t : State} (h : execOutTake s = .next t) :
    t.blk = { s.blk with txTotal := t.blk.txTotal, txIdx := t.blk.txIdx } := by
  rcases execOutTake_next_iff.1 h with ⟨-, rfl⟩ | ⟨v, -, -, rfl⟩
  · rfl
  · exact outAdvance_frame s.blk

/-- Settles O37: the block of each answer, and what the transaction's path does not own (R16). -/
theorem takeAndClearFrames : Obligations.TakeAndClearFrames := by
  intro s t
  refine ⟨fun h => ?_, fun h => ?_, fun h => ?_⟩
  · have hblk : t.blk = { s.blk with res := t.blk.res } := by rw [execResTake_blk h]
    exact ⟨exec_cfg h, exec_pending h, (execResTake_keeps_tx h).emitted, hblk⟩
  · have hhanded : t.handed = s.handed := (exec_keeps_res_handed h nofun nofun nofun).1
    have hblk : t.blk = { s.blk with pos := t.blk.pos } := by rw [execRxClear_blk h]
    exact ⟨exec_cfg h, exec_pending h, (execRxClear_keeps_tx h).emitted, hhanded, hblk⟩
  · exact ⟨exec_cfg h, exec_pending h, (execOutTake_keeps_rx h).handed, execOutTake_blk h⟩

end Sys2Proof.Machine

/-! ## Exceptions (spec/60_exceptions.md) -/

namespace Sys2Proof

/-- The range of `MAX_FRAME` is the first check, so its failure is the one named (R6). -/
theorem Config.firstFailed_of_maxFrameRange {cfg : Config}
    (h : cfg.passes .maxFrameRange = false) : cfg.firstFailed = some .maxFrameRange :=
  List.find?_cons_of_pos (by simp [h])

end Sys2Proof

namespace Sys2Proof.Machine

/-! ### Refusals (R18, R231) -/

theorem step_of_fetch_reject {s : State} {r : Refusal} (h : fetch s = .reject r) :
    step s = .refused r := by
  unfold step
  rw [h]

theorem step_of_illFormed {s : State} {c : ConfigCheck} (h : s.cfg.firstFailed = some c) :
    step s = .refused (.illFormedConfig c) := by
  apply step_of_fetch_reject
  unfold fetch
  rw [h]

/-- A reserved or malformed word in front of the presented requests is refused by its name (R93). -/
theorem step_of_badWord {s : State} {x : Tx} {rest : List Tx} {e : DecodeError}
    (hcfg : s.cfg.WellFormed) (hpending : s.pending = x :: rest) (hx : decode x = .error e) :
    step s = .refused (.badWord e) := by
  apply step_of_fetch_reject
  rw [fetch_of_wellFormed hcfg, hpending]
  simp only [fetchFrom, hx]

/-- A malformed transaction is refused and never holds (R19, R93). -/
theorem holds_of_not_wf {s : State} {i : Instr} (hi : i.wf s.cfg.argCap = false) :
    holds s i = false := by
  cases i with
  | encReq k t encLen encData => simp [holds, hi]
  | rxByte | rxClear | resTake | outTake | reset => cases hi

/-- A malformed transaction in front of the presented requests is fetched, and its `exec` refuses. -/
theorem step_of_not_wf {s : State} {x : Tx} {rest : List Tx} {i : Instr}
    (hcfg : s.cfg.WellFormed) (hpending : s.pending = x :: rest) (hx : decode x = .ok i)
    (hi : i.wf s.cfg.argCap = false) : step s = .refused .encDataTooLong := by
  rw [stepRunsThePresentedTransaction s [] rest x i hcfg hpending nofun hx (holds_of_not_wf hi)]
  exact exec_of_not_wf hi

/-- Settles O9: the first step refuses, and a refused step ends every run (`core_run_refused`). -/
theorem refusalsStandForTheWholeRun : Obligations.RefusalsStandForTheWholeRun := by
  refine ⟨fun s c n hfail => core_run_refused (step_of_illFormed hfail) n, fun s hrange => ?_,
    fun s x rest e n hcfg hpending hx => core_run_refused (step_of_badWord hcfg hpending hx) n,
    fun s x rest k t encLen encData n hcfg hpending hx hlong => ?_⟩
  · have hout : ¬ (4 ≤ s.cfg.maxFrame ∧ s.cfg.maxFrame ≤ 65538) := by omega
    exact Config.firstFailed_of_maxFrameRange
      (Bool.eq_false_iff.2 (mt Config.passes_maxFrameRange_iff.1 hout))
  · have hwf : (Instr.encReq k t encLen encData).wf s.cfg.argCap = false := by
      simpa [Instr.wf] using hlong
    exact core_run_refused (step_of_not_wf hcfg hpending hx hwf) n

/-! ### Error events and the trace (R220, R228, R238) -/

/-- A delivered result raises the codes 3 and 4 alone (R223, R224). -/
theorem Result.code_of_event {r : Result} {e : Event} (h : r.event = some e) :
    3 ≤ e.code ∧ e.code ≤ 4 := by
  cases r with
  | ok t n a => cases h
  | unsupported t n | badLen t n lo hi =>
    cases h
    simp [Event.code]

/-- An accepted byte raises the codes 1 to 4 alone (R220). -/
theorem RxCase.code_of_event {cfg : Config} {b : Byte} {blk blk' : Block} {e : Event}
    (h : RxCase cfg b blk blk' (some e)) : 1 ≤ e.code ∧ e.code ≤ 4 := by
  generalize hev : some e = ev at h
  cases h with
  | noise | marker | lowLength | highLength | inside => cases hev
  | overflow | empty =>
    cases hev
    simp [Event.code]
  | last =>
    have hcode := Result.code_of_event hev.symm
    omega

/-- An accepted request raises code 5 alone (R220). -/
theorem encAccept_code_of_event {cfg : Config} {k : FrameKind} {t : Byte} {encLen : Half}
    {encData : List Byte} {blk blk' : Block} {e : Event}
    (h : encAccept cfg k t encLen encData blk = .ok (blk', some e)) : e.code = 5 := by
  rcases encAccept_ok_iff.1 h with ⟨-, -, hev⟩ | ⟨-, hev, -⟩
  · cases hev
    rfl
  · cases hev

/-- Settles O50: what each transaction that does not hold answers, and the codes of its event. -/
theorem eachTransactionRecordsAtMostOneEvent :
    Obligations.EachTransactionRecordsAtMostOneEvent := by
  intro i s t h hi
  rw [Bool.eq_false_iff] at hi
  cases i with
  | rxByte b =>
    rcases execRxByte_next_iff.1 h with ⟨hwaits, -⟩ | ⟨-, blk, ev, hcase, rfl⟩
    · exact absurd hwaits hi
    · refine ⟨ev, rfl, ?_⟩
      rintro e rfl
      exact .inl ⟨⟨b, rfl⟩, hcase.code_of_event⟩
  | rxClear =>
    cases execRxClear_next_iff.1 h
    exact ⟨none, rfl, nofun⟩
  | resTake =>
    rcases execResTake_next_iff.1 h with ⟨hr, -⟩ | ⟨r, -, rfl⟩
    · exact absurd ((holds_resTake_iff s).2 hr) hi
    · exact ⟨none, rfl, nofun⟩
  | encReq k y encLen encData =>
    obtain ⟨hd, ⟨hbusy, -⟩ | ⟨-, blk, ev, hacc, rfl⟩⟩ := execEncReq_next_iff.1 h
    · exact absurd ((holds_encReq_iff s k y encLen encData).2 ⟨hd, hbusy⟩) hi
    · refine ⟨ev, rfl, ?_⟩
      rintro e rfl
      exact .inr ⟨⟨k, y, encLen, encData, rfl⟩, encAccept_code_of_event hacc⟩
  | outTake =>
    rcases execOutTake_next_iff.1 h with ⟨hidle, -⟩ | ⟨v, -, -, rfl⟩
    · exact absurd ((holds_outTake_iff s).2 hidle) hi
    · exact ⟨none, rfl, nofun⟩
  | reset =>
    cases execReset_next_iff.1 h
    exact ⟨none, rfl, nofun⟩

end Sys2Proof.Machine

/-! ## Hazards (spec/70_reset_and_hazards.md): noise without the marker -/

namespace Sys2Proof.Machine

/-- With no result waiting `feed` inserts no take (R100). -/
theorem takeIfWaiting_of_res_none {s : State} (hr : s.blk.res = none) :
    takeIfWaiting s = .next s :=
  if_neg (Bool.eq_false_iff.1 ((resValid_eq_false_iff _).2 hr))

/-- In Searching a byte that is not the marker is taken, and only recorded (R113). -/
theorem feedByte_of_noise {s : State} {b : Byte} (hr : s.blk.res = none) (hp : s.blk.pos = 0)
    (hb : b ≠ s.cfg.rxMarker) : feedByte b s = .next (s.finish (.rxByte b) none s.blk) :=
  andThen_next_iff.2 ⟨_, execRxByte_of_case hr (.noise hp hb), takeIfWaiting_of_res_none hr⟩

/-- Settles O55, by induction on the noise: `feedByte_of_noise` takes each byte and leaves the
block in which the next one is noise again. -/
theorem noiseWithoutMarkerIsDiscarded : Obligations.NoiseWithoutMarkerIsDiscarded := by
  intro s noise hr hp hnoise
  induction noise generalizing s with
  | nil => exact ⟨s, feed_nil s, rfl, rfl, (List.append_nil _).symm⟩
  | cons b bs ih =>
    obtain ⟨hb, hbs⟩ := List.forall_mem_cons.1 hnoise
    rw [feed_cons_of_next hr (feedByte_of_noise hr hp hb)]
    obtain ⟨t, hfeed, hblk, hhanded, htrace⟩ := ih (s.finish (.rxByte b) none s.blk) hr hp hbs
    refine ⟨t, hfeed, hblk, hhanded, ?_⟩
    rw [htrace, State.finish_trace, List.append_assoc, List.map_cons, List.singleton_append]

end Sys2Proof.Machine
